-- ==== Sys2Proof/Word.lean ====
section
/-! DEFINITION. The one data width of the core: the byte (20_memory.md R50, 10_state.md R21). -/

namespace Sys2Proof

/-- A byte: a memory cell, a register, an operand, an output value. All values are unsigned (00_scope.md R12). -/
abbrev Byte := BitVec 8

end Sys2Proof
end

