-- ==== Sys2Proof/Config.lean ====
section
/-! DEFINITION. The parameters of the core, with the one value each takes on this hardware (00_scope.md R10).
No parameter is left open and the spec leaves no value free (10_state.md R36), so there is no opaque constant here. -/

namespace Sys2Proof

namespace Config

/-- MEM_SIZE: the capacity of Memory in cells (00_scope.md R10, 20_memory.md R50). -/
abbrev memSize : Nat := 256

/-- NUM_REGS: the number of registers (00_scope.md R10, 10_state.md R21). -/
abbrev numRegs : Nat := 8

/-- SP_RESET = MEM_SIZE - 1: the launch value of the Stack Pointer (00_scope.md R10, 90_conflicts.md C2). -/
abbrev spReset : Byte := 255#8

/-- PC_RESET: the entry point (00_scope.md R10, 70_reset_and_hazards.md R232). -/
abbrev pcReset : Nat := 0

/-- What a cell that nothing has written reads as: Memory is zero-initialised (10_state.md R36). -/
abbrev unlistedByte : Byte := 0#8

end Config

/-- A register index 0..7, one of the NUM_REGS = 8 registers (10_state.md R21). -/
abbrev RegIdx := Fin 8

/-- SP_INDEX: register 7 is the Stack Pointer (00_scope.md R10, 10_state.md R22). -/
abbrev spIdx : RegIdx := 7

end Sys2Proof
end

