-- ==== Sys2Proof/Machine/State.lean ====
section
/-! DEFINITION. The state of the core, `(mem, x, pc, run, out)` and nothing else (10_state.md R20, R33), its fault
record, the reasons a step has no next state, and the state at launch. -/

namespace Sys2Proof.Machine

/-- The kind of a fatal condition with the information it records (60_exceptions.md R200). -/
inductive FaultKind where
  /-- The fetched opcode byte has no handler (60_exceptions.md R202). Raised by the loop, step 3. -/
  | unknownOpcode (op : Byte)
  /-- An address is 256 or more (60_exceptions.md R203). Raised by MemRead and MemWrite; only a fetch can reach it. -/
  | memoryRangeFault (addr : Nat)
  /-- An operand byte used as a register index is 8 or more (60_exceptions.md R204). Raised by the register-index check. -/
  | registerIndexFault (index : Byte)
  /-- The ALU is asked for an operation it does not have (60_exceptions.md R205). Direct ALU invocation only. -/
  | aluUnsupportedOperation (name : String)
  /-- ALU DIV by 0 (60_exceptions.md R205). Direct ALU invocation only. -/
  | aluDivideByZero
  deriving DecidableEq, Repr

/-- The fault record `f = (kind, info, pc)`: `kind` carries the info, `pc` is the address of the faulting
instruction's opcode byte (60_exceptions.md R201). -/
structure FaultRecord where
  kind : FaultKind
  pc : Nat
  deriving DecidableEq, Repr

/-- The run state (10_state.md R27). -/
inductive RunState where
  /-- The loop is running. -/
  | running
  /-- Ended by HLT (41_system.md R130). -/
  | halted
  /-- Ended by a fatal condition (60_exceptions.md R200). -/
  | faulted (f : FaultRecord)
  deriving DecidableEq, Repr

/-- Memory: the cells that do not hold `Config.unlistedByte`, as (address, byte) pairs in rising order of address.
`Memory.wf` says this form holds (log 12). -/
abbrev Memory := List Host.Cell

/-- The whole state of the core (10_state.md R20). -/
structure State where
  /-- Memory, 256 cells of one byte (20_memory.md R50). -/
  mem : Memory
  /-- The Register File, x[0] to x[7], one byte each; x[7] is the Stack Pointer (10_state.md R21, R22). -/
  regs : Vector Byte 8
  /-- The Program Counter, a natural number that is not reduced modulo 256 (10_state.md R26). -/
  pc : Nat
  /-- The run state (10_state.md R27). -/
  run : RunState
  /-- The output port, oldest byte first (10_state.md R31). -/
  out : List Byte
  deriving DecidableEq, Repr

/-- Why a step has no next state: the core has ended (10_state.md R28). A fatal condition is not one of these: it has
a next state, in which `run` is `faulted` (40_fetch_execute.md R119, log 1). -/
inductive Fault where
  /-- Raised by `step` in Halted: the core has no step there (10_state.md R28, log 2). Safe: no next state is claimed. -/
  | coreHalted
  /-- Raised by `step` in Faulted(f): the core has no step there (10_state.md R28, log 2). Safe: no next state is
  claimed. -/
  | coreFaulted (f : FaultRecord)
  deriving DecidableEq, Repr

/-- Why the model gives an instruction no meaning. -/
inductive Refusal where
  /-- Raised by an arm of `exec` whose instruction has no meaning in the model; no arm of this model raises it. Safe. -/
  | notModelled (mnemonic : String)
  deriving DecidableEq, Repr

/-- The state at construction, in which the run loop starts when no program byte has been loaded: Memory and registers
zero, SP = 255, pc = 0, Running, no output (10_state.md R36; 70_reset_and_hazards.md R230). -/
def State.reset : State where
  mem := []
  regs := #v[0#8, 0#8, 0#8, 0#8, 0#8, 0#8, 0#8, Config.spReset]
  pc := Config.pcReset
  run := .running
  out := []

end Sys2Proof.Machine
end

