-- ==== Sys2Proof/Machine/Flags.lean ====
section
/-! DEFINITION. The core has no flags and no condition codes (10_state.md R33), so no instruction computes one. What
stands here is the reduction that a carry or overflow flag would otherwise report: it is silent (43_alu.md R151, R154). -/

namespace Sys2Proof.Machine

/-- `v mod 256` of an exact integer result, with no overflow detected or recorded (00_scope.md R12, 43_alu.md R151). -/
def trunc8 (v : Int) : Byte := BitVec.ofInt 8 v

end Sys2Proof.Machine
end

