-- ==== Sys2Proof/Machine/Operands.lean ====
section
/-! DEFINITION. The operand forms (30_encoding.md R82, R83). An operand is a whole byte: a register index, checked when
it is used, or LDI's immediate, used as it is. -/

namespace Sys2Proof.Machine

/-- `Reg(i)`: the register-index check (40_fetch_execute.md R117). -/
def regIndex (i : Byte) : Except FaultKind RegIdx :=
  if h : i.toNat < Config.numRegs then .ok ⟨i.toNat, h⟩ else .error (.registerIndexFault i)

/-- The immediate of LDI: the whole byte, not extended, scaled or shifted (30_encoding.md R83). -/
def immediate (b : Byte) : Byte := b

end Sys2Proof.Machine
end

