-- ==== Sys2Proof/Machine/Ops.lean ====
section
/-! DEFINITION. The named operations over registers, memory, the stack and the run state that every handler uses
(00_scope.md R13), and taking a fatal condition as one shared operation. The core has no return from a fault
(60_exceptions.md R208), so none stands beside it. -/

namespace Sys2Proof.Machine

/-! ## Memory as a canonical list -/

/-- The byte of cell `a`: a cell that is not listed holds `Config.unlistedByte` (10_state.md R36). -/
def Memory.read : Memory → Nat → Byte
  | [], _ => Config.unlistedByte
  | (b, w) :: m, a => if a = b then w else Memory.read m a

/-- Takes cell `a` out of the list. -/
def Memory.erase (m : Memory) (a : Nat) : Memory := m.filter fun c => c.1 ≠ a

/-- Puts cell `a` into the list, before the first cell with a higher address. -/
def Memory.insert (a : Nat) (v : Byte) : Memory → Memory
  | [] => [(a, v)]
  | (b, w) :: m => if a < b then (a, v) :: (b, w) :: m else (b, w) :: Memory.insert a v m

/-- Stores `v` in cell `a` and keeps the canonical form: a cell that holds the unlisted value is not listed. -/
def Memory.write (m : Memory) (a : Nat) (v : Byte) : Memory :=
  if v = Config.unlistedByte then Memory.erase m a else Memory.insert a v (Memory.erase m a)

/-- The list rises strictly from `lo`, stays below MEM_SIZE and lists no unlisted value. -/
def Memory.wfFrom : Nat → Memory → Bool
  | _, [] => true
  | lo, (a, v) :: m =>
    decide (lo ≤ a) && decide (a < Config.memSize) && decide (v ≠ Config.unlistedByte) && Memory.wfFrom (a + 1) m

/-- The canonical form of Memory: addresses strictly rising and in 0..255, no cell that holds the unlisted value. -/
def Memory.wf (m : Memory) : Bool := Memory.wfFrom 0 m

/-! ## Registers, pc, run state, output port -/

/-- `x[i]`, read (00_scope.md R13). -/
def State.reg (s : State) (i : RegIdx) : Byte := s.regs.get i

/-- `x[i] <- v` (00_scope.md R13). No register is hardwired or read-only (10_state.md R21). -/
def State.setReg (s : State) (i : RegIdx) (v : Byte) : State := { s with regs := s.regs.set i.val v i.isLt }

/-- Memory as a whole, replaced. -/
def State.setMem (s : State) (m : Memory) : State := { s with mem := m }

/-- The Stack Pointer is x[7], not a register of its own (10_state.md R22). -/
def State.sp (s : State) : Byte := s.reg spIdx

/-- `pc <- target` (00_scope.md R13). -/
def State.setPc (s : State) (target : Nat) : State := { s with pc := target }

/-- The sequential pc update by the instruction's length (40_fetch_execute.md R116); not reduced modulo 256
(10_state.md R26). -/
def State.advance (s : State) (len : Nat) : State := s.setPc (s.pc + len)

/-- `halt`: run becomes Halted (00_scope.md R13, 10_state.md R27). -/
def State.halt (s : State) : State := { s with run := .halted }

/-- `Output(v)`: append a byte to the output port (00_scope.md R13, 10_state.md R31). -/
def State.output (s : State) (v : Byte) : State := { s with out := s.out ++ [v] }

/-! ## Fatal conditions -/

/-- `raise`: run becomes Faulted(kind, pc) and nothing else changes (40_fetch_execute.md R119,
60_exceptions.md R201, R207). -/
def State.takeFault (s : State) (k : FaultKind) : State := { s with run := .faulted ⟨k, s.pc⟩ }

/-- The end of a step that started in `s`: the handler's state, or `s` itself with the fatal condition taken, so that
a step that fails any check writes nothing (40_fetch_execute.md R119). -/
def conclude (s : State) : Except FaultKind State → Host.Outcome State Fault Refusal
  | .ok t => .next t
  | .error k => .next (s.takeFault k)

/-! ## The memory interface -/

/-- `MemRead(addr, 1)` with its range check (20_memory.md R52, R53). -/
def State.memRead (s : State) (addr : Nat) : Except FaultKind Byte :=
  if addr < Config.memSize then .ok (Memory.read s.mem addr) else .error (.memoryRangeFault addr)

/-- `MemWrite(addr, 1, v)` with its range check (20_memory.md R53, R54). -/
def State.memWrite (s : State) (addr : Nat) (v : Byte) : Except FaultKind State :=
  if addr < Config.memSize then .ok (s.setMem (Memory.write s.mem addr v)) else .error (.memoryRangeFault addr)

/-! ## The stack (20_memory.md R61, R62) -/

/-- The cell a push writes, which is also the decremented SP: (x[7] - 1) mod 256 (20_memory.md R55, R61). -/
def State.pushAddr (s : State) : Byte := trunc8 ((s.sp.toNat : Int) - 1)

/-- `x[7] <- (x[7] - 1) mod 256` (20_memory.md R61). -/
def State.decSp (s : State) : State := s.setReg spIdx s.pushAddr

/-- `x[7] <- (x[7] + 1) mod 256` (20_memory.md R61). -/
def State.incSp (s : State) : State := s.setReg spIdx (trunc8 ((s.sp.toNat : Int) + 1))

/-- `Push(v)`: decrement SP, then write (20_memory.md R61). -/
def State.pushByte (s : State) (v : Byte) : Except FaultKind State :=
  s.decSp.memWrite s.decSp.sp.toNat v

/-- `Pop()`: read, then increment SP (20_memory.md R61). -/
def State.popByte (s : State) : Except FaultKind (Byte × State) := do
  let v ← s.memRead s.sp.toNat
  return (v, s.incSp)

end Sys2Proof.Machine
end

