-- ==== Sys2Proof/Machine/Alu.lean ====
section
/-! DEFINITION. The ALU in full, with the operations no opcode reaches (43_alu.md R150 to R153), and its two
instructions, ADD and MUL. -/

namespace Sys2Proof.Machine

/-- The operation the ALU is asked for (43_alu.md R150). -/
inductive AluOp where
  | add
  | sub
  | mul
  | div
  /-- Any other operation name (43_alu.md R152, otherwise). -/
  | unsupported (name : String)
  deriving DecidableEq, Repr

/-- The operation that a name stands for (43_alu.md R150; log 6). -/
def AluOp.ofName (name : String) : AluOp :=
  if name = "ADD" then .add
  else if name = "SUB" then .sub
  else if name = "MUL" then .mul
  else if name = "DIV" then .div
  else .unsupported name

/-- The result of an operation on two byte values, the exact value reduced modulo 256 (43_alu.md R151, R152). -/
def aluResult (op : AluOp) (p q : Byte) : Except FaultKind Byte :=
  match op with
  | .add => .ok (trunc8 ((p.toNat : Int) + q.toNat))
  | .sub => .ok (trunc8 ((p.toNat : Int) - q.toNat))
  | .mul => .ok (trunc8 ((p.toNat : Int) * q.toNat))
  | .div => if q = 0#8 then .error .aluDivideByZero else .ok (trunc8 ((p.toNat / q.toNat : Nat) : Int))
  | .unsupported name => .error (.aluUnsupportedOperation name)

/-- `ALU(op, ra, rb)`: both registers are read before the first is written (43_alu.md R152). -/
def alu (op : AluOp) (ra rb : RegIdx) (s : State) : Except FaultKind State := do
  let r ← aluResult op (s.reg ra) (s.reg rb)
  return s.setReg ra r

/-- Direct ALU invocation, `apply(op, regA, regB)` (43_alu.md R150, R153): what no instruction byte can ask for. -/
def aluApply (name : String) (a b : Byte) (s : State) : Except FaultKind State := do
  let ra ← regIndex a
  let rb ← regIndex b
  alu (AluOp.ofName name) ra rb s

/-- ADD regA, regB (43_alu.md R155). -/
def execAdd (a b : Byte) (s : State) : Host.Outcome State Fault Refusal :=
  conclude s do
    let ra ← regIndex a
    let rb ← regIndex b
    let t ← alu .add ra rb s
    return t.advance 3

/-- MUL regA, regB (43_alu.md R157). -/
def execMul (a b : Byte) (s : State) : Host.Outcome State Fault Refusal :=
  conclude s do
    let ra ← regIndex a
    let rb ← regIndex b
    let t ← alu .mul ra rb s
    return t.advance 3

end Sys2Proof.Machine
end

