-- ==== Sys2Proof/Machine/Data.lean ====
section
/-! DEFINITION. Data movement and output: LDI, PRN (42_data.md). -/

namespace Sys2Proof.Machine

/-- LDI reg, imm (42_data.md R140). -/
def execLdi (a b : Byte) (s : State) : Host.Outcome State Fault Refusal :=
  conclude s do
    let d ← regIndex a
    return (s.setReg d (immediate b)).advance 3

/-- PRN reg (42_data.md R142). -/
def execPrn (a : Byte) (s : State) : Host.Outcome State Fault Refusal :=
  conclude s do
    let r ← regIndex a
    return (s.output (s.reg r)).advance 2

end Sys2Proof.Machine
end

