-- ==== Sys2Proof/Machine/Stack.lean ====
section
/-! DEFINITION. The stack instructions PUSH and POP (44_stack.md). Effects happen in the written order, which matters
when the operand is register 7. -/

namespace Sys2Proof.Machine

/-- PUSH reg: x[a] is read after SP is decremented (44_stack.md R170). -/
def execPush (a : Byte) (s : State) : Host.Outcome State Fault Refusal :=
  conclude s do
    let r ← regIndex a
    let t ← s.pushByte (s.decSp.reg r)
    return t.advance 2

/-- POP reg: x[a] is written before SP is incremented (44_stack.md R171). -/
def execPop (a : Byte) (s : State) : Host.Outcome State Fault Refusal :=
  conclude s do
    let r ← regIndex a
    let v ← s.memRead s.sp.toNat
    return (s.setReg r v).incSp.advance 2

end Sys2Proof.Machine
end

