-- ==== Sys2Proof/Machine/Subroutine.lean ====
section
/-! DEFINITION. The subroutine instructions CALL and RET, the only control transfers (45_subroutine.md R185). -/

namespace Sys2Proof.Machine

/-- The return address a CALL pushes, pc + 2: a byte wherever a CALL can execute (45_subroutine.md R181; log 4 for
the pc from which none can). -/
def State.returnAddr (s : State) : Byte := trunc8 ((s.pc : Int) + 2)

/-- CALL reg: x[a] is read after SP is decremented (45_subroutine.md R180). -/
def execCall (a : Byte) (s : State) : Host.Outcome State Fault Refusal :=
  conclude s do
    let r ← regIndex a
    let t ← s.pushByte s.returnAddr
    return t.setPc (t.reg r).toNat

/-- RET: pop the stack into pc (45_subroutine.md R183). -/
def execRet (s : State) : Host.Outcome State Fault Refusal :=
  conclude s do
    let (v, t) ← s.popByte
    return t.setPc v.toNat

end Sys2Proof.Machine
end

