-- ==== Sys2Proof/Machine/System.lean ====
section
/-! DEFINITION. The system family: HLT (41_system.md). -/

namespace Sys2Proof.Machine

/-- HLT: run becomes Halted, pc advances by 1 (41_system.md R130). -/
def execHlt (s : State) : Host.Outcome State Fault Refusal :=
  conclude s (.ok (s.halt.advance 1))

end Sys2Proof.Machine
end

