-- ==== Sys2Proof/Syntax.lean ====
section
/-! DEFINITION. The nine instructions of spec/opcode_table.json (30_encoding.md R86), one constructor per row. -/

namespace Sys2Proof

/-- An instruction with the operand bytes that belong to it (30_encoding.md R80, R81).
A register operand is the whole byte at its place, 0..255 (R82): only 0..7 name a register, which `Instr.wf` says,
and any other value is a fault of the handler when it uses the operand, not of the decoder.
The fetched bytes that an instruction ignores (R84) are no part of it (log 5). -/
inductive Instr where
  /-- HLT: halt (41_system.md R130). -/
  | hlt
  /-- LDI reg, imm: load immediate (42_data.md R140). -/
  | ldi (a b : Byte)
  /-- PRN reg: output a register (42_data.md R142). -/
  | prn (a : Byte)
  /-- ADD regA, regB (43_alu.md R155). -/
  | add (a b : Byte)
  /-- MUL regA, regB (43_alu.md R157). -/
  | mul (a b : Byte)
  /-- PUSH reg (44_stack.md R170). -/
  | push (a : Byte)
  /-- POP reg (44_stack.md R171). -/
  | pop (a : Byte)
  /-- CALL reg (45_subroutine.md R180). -/
  | call (a : Byte)
  /-- RET (45_subroutine.md R183). -/
  | ret
  deriving DecidableEq, Repr

end Sys2Proof
end

