-- ==== Sys2Proof/WellFormed.lean ====
section
/-! DEFINITION. Operand-level legality (30_encoding.md R89): which operand bytes are register indices, and that each
of them names a register. LDI's immediate is not one of them: every byte is a legal immediate (R83). -/

namespace Sys2Proof

/-- The operand bytes an instruction uses as register indices, in the order its handler checks them
(30_encoding.md R89; 40_fetch_execute.md R117: a before b). -/
def Instr.regOperands : Instr → List Byte
  | .hlt => []
  | .ldi a _ => [a]
  | .prn a => [a]
  | .add a b => [a, b]
  | .mul a b => [a, b]
  | .push a => [a]
  | .pop a => [a]
  | .call a => [a]
  | .ret => []

/-- A register operand byte names a register exactly when it is in 0..7 (30_encoding.md R82). -/
def namesRegister (a : Byte) : Bool := decide (a.toNat < Config.numRegs)

/-- Every register operand names a register (30_encoding.md R89). -/
def Instr.wf (i : Instr) : Bool := i.regOperands.all namesRegister

end Sys2Proof
end

