-- ==== Sys2Proof/Decode.lean ====
section
/-! DEFINITION. The opcode map (30_encoding.md R86): the decoder, total on any bytes and rejecting by name, and the
encoder written from the same table. -/

namespace Sys2Proof

/-- Why fetched bytes are no instruction. -/
inductive DecodeError where
  /-- The opcode byte is none of the nine (30_encoding.md R88). Raised by `decode`; safe: the machine takes the fault
  UnknownOpcode that the spec names. -/
  | unknownOpcode (op : Byte)
  deriving DecidableEq, Repr

/-- Why a program text starts with no instruction. Raised by `decodeBytes` only, never by the machine, which always
fetches three bytes (40_fetch_execute.md R111); safe (log 13). -/
inductive TextError where
  /-- The text ends before the instruction does. -/
  | truncated
  /-- The bytes are no instruction. -/
  | undecodable (e : DecodeError)
  deriving DecidableEq, Repr

/-- The Dispatcher's lookup: one exact match of the whole opcode byte (30_encoding.md R85, R86;
40_fetch_execute.md R113), given the bytes at pc, pc+1 and pc+2. Bytes an instruction does not use are ignored
(30_encoding.md R84). -/
def decode (op a b : Byte) : Except DecodeError Instr :=
  match op with
  | 0x01#8 => .ok .hlt
  | 0x82#8 => .ok (.ldi a b)
  | 0x47#8 => .ok (.prn a)
  | 0xA0#8 => .ok (.add a b)
  | 0xA2#8 => .ok (.mul a b)
  | 0x45#8 => .ok (.push a)
  | 0x46#8 => .ok (.pop a)
  | 0x50#8 => .ok (.call a)
  | 0x11#8 => .ok .ret
  | op => .error (.unknownOpcode op)

/-- The mnemonic of the opcode map (30_encoding.md R86). -/
def Instr.mnemonic : Instr → String
  | .hlt => "HLT"
  | .ldi _ _ => "LDI"
  | .prn _ => "PRN"
  | .add _ _ => "ADD"
  | .mul _ _ => "MUL"
  | .push _ => "PUSH"
  | .pop _ => "POP"
  | .call _ => "CALL"
  | .ret => "RET"

/-- The opcode byte of the opcode map (30_encoding.md R86). -/
def Instr.opcode : Instr → Byte
  | .hlt => 0x01#8
  | .ldi _ _ => 0x82#8
  | .prn _ => 0x47#8
  | .add _ _ => 0xA0#8
  | .mul _ _ => 0xA2#8
  | .push _ => 0x45#8
  | .pop _ => 0x46#8
  | .call _ => 0x50#8
  | .ret => 0x11#8

/-- The operand bytes in the order they stand after the opcode (30_encoding.md R81). -/
def Instr.operandBytes : Instr → List Byte
  | .hlt => []
  | .ldi a b => [a, b]
  | .prn a => [a]
  | .add a b => [a, b]
  | .mul a b => [a, b]
  | .push a => [a]
  | .pop a => [a]
  | .call a => [a]
  | .ret => []

/-- The encoding of an instruction: its opcode byte, then its operand bytes (30_encoding.md R80). -/
def encode (i : Instr) : List Byte := i.opcode :: i.operandBytes

/-- The length in bytes, 1 + operand count (30_encoding.md R80, R86). -/
def Instr.length (i : Instr) : Nat := (encode i).length

/-- Reads one instruction off the front of a program text and answers it with the bytes after it
(30_encoding.md R92: the tokens of a program are the instruction bytes in address order). -/
def decodeBytes : List Byte → Except TextError (Instr × List Byte)
  | [] => .error .truncated
  | op :: rest =>
    match decode op (rest.getD 0 0#8) (rest.getD 1 0#8) with
    | .error e => .error (.undecodable e)
    | .ok i =>
      if rest.length < i.operandBytes.length then .error .truncated
      else .ok (i, rest.drop i.operandBytes.length)

/-- A register operand in assembly text, `R0` to `R7` (30_encoding.md R91). -/
def regText (a : Byte) : String := "R" ++ toString a.toNat

/-- The assembly syntax: the mnemonic, then the operands separated by commas, immediates in decimal
(30_encoding.md R91). -/
def Instr.text (i : Instr) : String :=
  match i with
  | .hlt => i.mnemonic
  | .ldi a b => i.mnemonic ++ " " ++ regText a ++ "," ++ toString b.toNat
  | .prn a => i.mnemonic ++ " " ++ regText a
  | .add a b => i.mnemonic ++ " " ++ regText a ++ "," ++ regText b
  | .mul a b => i.mnemonic ++ " " ++ regText a ++ "," ++ regText b
  | .push a => i.mnemonic ++ " " ++ regText a
  | .pop a => i.mnemonic ++ " " ++ regText a
  | .call a => i.mnemonic ++ " " ++ regText a
  | .ret => i.mnemonic

/-- Byte `k` of a word whose first byte is its least significant one; bits from `nbits` on count as 0. -/
def tableByte (nbits w k : Nat) : Byte := BitVec.ofNat 8 (w % 2 ^ nbits / 2 ^ (8 * k))

/-- The instruction `decode` reads from an instruction whose bits are `w`, numbered as spec/opcode_table.json numbers
them: the first byte is bits 7..0, the second bits 15..8, the third bits 23..16; bits from `nbits` on are 0. -/
def decodeTableWord (nbits w : Nat) : Option Instr :=
  match decode (tableByte nbits w 0) (tableByte nbits w 1) (tableByte nbits w 2) with
  | .ok i => some i
  | .error _ => none

end Sys2Proof
end

