-- ==== Sys2Proof/Machine/Fetch.lean ====
section
/-! DEFINITION. Steps 1 to 3 of the loop body: fetch the three bytes, each with its range check, then look the opcode
up (40_fetch_execute.md R111). -/

namespace Sys2Proof.Machine

/-- `op`, `a`, `b`: the bytes at pc, pc+1 and pc+2, all read on every step (40_fetch_execute.md R111). -/
def State.fetch (s : State) : Except FaultKind (Byte × Byte × Byte) := do
  let op ← s.memRead s.pc
  let a ← s.memRead (s.pc + 1)
  let b ← s.memRead (s.pc + 2)
  return (op, a, b)

/-- The fatal condition that a decoding error is (60_exceptions.md R202). -/
def decodeFault : DecodeError → FaultKind
  | .unknownOpcode op => .unknownOpcode op

/-- Step 3 of the loop body: the instruction the opcode byte selects, or UnknownOpcode (40_fetch_execute.md R114). -/
def lookupInstr (op a b : Byte) : Except FaultKind Instr :=
  match decode op a b with
  | .error e => .error (decodeFault e)
  | .ok i => .ok i

/-- Fetch and look up: the instruction at pc, or the first check that fails (60_exceptions.md R206, items 1 to 4). -/
def State.fetchInstr (s : State) : Except FaultKind Instr :=
  match s.fetch with
  | .error k => .error k
  | .ok (op, a, b) => lookupInstr op a b

/-- Stores the three bytes of a table word at pc, pc+1 and pc+2; a byte whose address does not exist goes nowhere. -/
def State.storeTableWord (s : State) (nbits w : Nat) : State :=
  let put (m : Memory) (k : Nat) : Memory :=
    if s.pc + k < Config.memSize then Memory.write m (s.pc + k) (tableByte nbits w k) else m
  { s with mem := put (put (put s.mem 0) 1) 2 }

end Sys2Proof.Machine
end

