-- ==== Sys2Proof/Machine/Step.lean ====
section
/-! DEFINITION. One step of the core (40_fetch_execute.md R110, R111). -/

namespace Sys2Proof.Machine

/-- One pass of the loop body (40_fetch_execute.md R111). In Halted and Faulted the core has no step
(10_state.md R28). -/
def step (s : State) : Host.Outcome State Fault Refusal :=
  match s.run with
  | .halted => .fault .coreHalted
  | .faulted f => .fault (.coreFaulted f)
  | .running =>
    match s.fetchInstr with
    | .error k => conclude s (.error k)
    | .ok i => exec i s

/-- The host's load and start of one instruction word at the fetch address (10_state.md R35; log 7): the word's bytes at
pc, pc+1 and pc+2, and the core Running. Above pc = 253 no instruction can execute (40_fetch_execute.md R112). -/
def State.withFetchWord (s : State) (nbits w : Nat) : State :=
  { s.storeTableWord nbits w with run := .running }

end Sys2Proof.Machine
end

