-- ==== Sys2Proof/Machine/Loader.lean ====
section
/-! DEFINITION. The host interface that produces the launch state: the loader and process entry
(70_reset_and_hazards.md R236 to R238). It is outside the core (00_scope.md R6). Text is a list of characters. -/

namespace Sys2Proof.Machine

/-- Why a program file cannot be loaded (70_reset_and_hazards.md R238; log 10). No step runs then: safe. -/
inductive LoadError where
  /-- The file cannot be read. Raised by `processEntry`. -/
  | unreadableFile
  /-- A token is not exactly eight binary digits. Raised by `loadLines`. -/
  | malformedToken
  /-- The image has more than MEM_SIZE bytes. Raised by `loadLines`. -/
  | imageTooLong
  deriving DecidableEq, Repr

/-- Why a process ends before any execution (70_reset_and_hazards.md R237, R238). -/
inductive EntryError where
  /-- Not exactly one argument. Raised by `processEntry`. -/
  | usageError
  /-- The program could not be loaded. Raised by `processEntry`. -/
  | loadError (e : LoadError)
  deriving DecidableEq, Repr

/-- White space around a token: space, tab, line feed, carriage return (log 8). -/
def isBlank (c : Char) : Bool := c == ' ' || c == '\t' || c == '\n' || c == '\r'

/-- Removes leading and trailing white space (70_reset_and_hazards.md R236). -/
def strip (t : List Char) : List Char := ((t.dropWhile isBlank).reverse.dropWhile isBlank).reverse

/-- The text of a line before the first `#` (30_encoding.md R92). -/
def beforeComment (line : List Char) : List Char := line.takeWhile fun c => c != '#'

/-- The value of a list of binary digits, first digit most significant, or none at any other character
(00_scope.md R11). -/
def binaryValue : Nat → List Char → Option Nat
  | n, [] => some n
  | n, c :: t => if c = '0' then binaryValue (2 * n) t else if c = '1' then binaryValue (2 * n + 1) t else none

/-- The byte of a token of exactly eight binary digits (70_reset_and_hazards.md R236). -/
def tokenByte (t : List Char) : Option Byte :=
  if t.length = 8 then (binaryValue 0 t).map (BitVec.ofNat 8) else none

/-- The loader, from address `addr` on: successive tokens go to successive addresses (70_reset_and_hazards.md R236). -/
def loadLines : List (List Char) → Nat → Memory → Except LoadError Memory
  | [], _, m => .ok m
  | line :: lines, addr, m =>
    if strip (beforeComment line) = [] then loadLines lines addr m
    else
      match tokenByte (strip (beforeComment line)) with
      | none => .error .malformedToken
      | some v =>
        if Config.memSize ≤ addr then .error .imageTooLong
        else loadLines lines (addr + 1) (Memory.write m addr v)

/-- Writes the bytes of an image to successive addresses from `addr`. -/
def storeImage : List Byte → Nat → Memory → Memory
  | [], _, m => m
  | v :: image, addr, m => storeImage image (addr + 1) (Memory.write m addr v)

/-- The construction state with its Memory filled by the loader: the launch state (70_reset_and_hazards.md R230, R235). -/
def launchWith (m : Memory) : State := { State.reset with mem := m }

/-- The launch state of a program image (10_state.md R36). -/
def launch (image : List Byte) : State := launchWith (storeImage image 0 State.reset.mem)

/-- The lines of a text (log 9). -/
def splitLines : List Char → List (List Char)
  | [] => [[]]
  | c :: t =>
    if c = '\n' then [] :: splitLines t
    else
      match splitLines t with
      | [] => [[c]]
      | l :: ls => (c :: l) :: ls

/-- Process entry: exactly one argument, the path of the program file; the answer is the launch state, or the reason
that nothing executes (70_reset_and_hazards.md R237, R238). `readFile` is the host's file system. -/
def processEntry (args : List String) (readFile : String → Option (List Char)) : Except EntryError State :=
  match args with
  | [path] =>
    match readFile path with
    | none => .error (.loadError .unreadableFile)
    | some text =>
      match loadLines (splitLines text) 0 State.reset.mem with
      | .error e => .error (.loadError e)
      | .ok m => .ok (launchWith m)
  | _ => .error .usageError

/-- Every entry error exits with status 1 before any execution (70_reset_and_hazards.md R237, R238). -/
def EntryError.exitStatus : EntryError → Nat
  | .usageError => 1
  | .loadError _ => 1

end Sys2Proof.Machine
end

