-- ==== Sys2Proof/Machine/Run.lean ====
section
/-! DEFINITION. Runs under fuel and what the host reads at the end of one: end of run, exit status, output lines,
opcode diagnostic (10_state.md R29 to R31; 70_reset_and_hazards.md R239, R250), and the trace observer
(60_exceptions.md R216). -/

namespace Sys2Proof.Machine

/-- A run has ended exactly in Halted or Faulted (10_state.md R30). -/
def State.ended (s : State) : Bool :=
  match s.run with
  | .running => false
  | .halted => true
  | .faulted _ => true

/-- The exit status: 0 in Halted, 1 in Faulted, none while Running (10_state.md R29, R30). -/
def State.exitStatus (s : State) : Option Nat :=
  match s.run with
  | .running => none
  | .halted => some 0
  | .faulted _ => some 1

/-- The fault record, the status output of a faulted core (60_exceptions.md R201; 10_state.md R35). -/
def State.faultRecord (s : State) : Option FaultRecord :=
  match s.run with
  | .running => none
  | .halted => none
  | .faulted f => some f

/-- What the diagnostic of an unknown opcode shows, the offending opcode value; the text of the others is the host's
(60_exceptions.md R207). -/
def State.offendingOpcode (s : State) : Option Byte :=
  match s.run with
  | .faulted ⟨.unknownOpcode op, _⟩ => some op
  | _ => none

/-- One decimal line per output byte (10_state.md R31, 70_reset_and_hazards.md R239). -/
def State.outputLines (s : State) : List String := s.out.map fun v => toString v.toNat

/-- At most `fuel` steps from `s`; it stays where there is no step (10_state.md R28). -/
def runFor : Nat → State → State
  | 0, s => s
  | n + 1, s =>
    match step s with
    | .next t => runFor n t
    | .fault _ => s
    | .refused _ => s

/-- The observable result of a run, the output port with the exit status (10_state.md R31); none when the fuel ran out
before the end, which is no end (10_state.md R30, 70_reset_and_hazards.md R250). -/
def runResult (fuel : Nat) (s : State) : Option (List Byte × Nat) :=
  match (runFor fuel s).exitStatus with
  | none => none
  | some e => some ((runFor fuel s).out, e)

/-- One hexadecimal digit, uppercase. -/
def hexDigit (n : Nat) : Char := if n < 10 then Char.ofNat (48 + n) else Char.ofNat (55 + n)

/-- Two-digit uppercase hexadecimal (60_exceptions.md R216). -/
def hex2 (n : Nat) : List Char := [hexDigit (n / 16), hexDigit (n % 16)]

/-- What the trace observer shows of a step whose fetch succeeds: pc, the three fetched bytes and the eight registers,
each in hexadecimal (60_exceptions.md R216). It only reads; the layout of the line is the host's (log 11). -/
def State.traceFields (s : State) : Except FaultKind (List (List Char)) := do
  let (op, a, b) ← s.fetch
  return hex2 s.pc :: hex2 op.toNat :: hex2 a.toNat :: hex2 b.toNat :: s.regs.toList.map fun v => hex2 v.toNat

end Sys2Proof.Machine
end

