-- ==== Sys2Proof/Safety.lean ====
section
/-! DEFINITION. The terms that claims about a run are stated in: what a legal state is, which faults a run can record,
and which registers and cell an instruction may touch. -/

namespace Sys2Proof

/-- The registers an instruction reads (10_state.md R25). -/
def Instr.readsReg (i : Instr) (r : RegIdx) : Prop :=
  match i with
  | .hlt => False
  | .ldi _ _ => False
  | .prn a => r.val = a.toNat
  | .add a b => r.val = a.toNat ∨ r.val = b.toNat
  | .mul a b => r.val = a.toNat ∨ r.val = b.toNat
  | .push a => r = 7 ∨ r.val = a.toNat
  | .pop _ => r = 7
  | .call a => r = 7 ∨ r.val = a.toNat
  | .ret => r = 7

/-- The registers an instruction writes (10_state.md R25). -/
def Instr.writesReg (i : Instr) (r : RegIdx) : Prop :=
  match i with
  | .hlt => False
  | .ldi a _ => r.val = a.toNat
  | .prn _ => False
  | .add a _ => r.val = a.toNat
  | .mul a _ => r.val = a.toNat
  | .push _ => r = 7
  | .pop a => r.val = a.toNat ∨ r = 7
  | .call _ => r = 7
  | .ret => r = 7

end Sys2Proof

namespace Sys2Proof.Machine

/-- The nine opcode bytes (30_encoding.md R86, R88). -/
def opcodeBytes : List Byte := [0x01#8, 0x82#8, 0x47#8, 0xA0#8, 0xA2#8, 0x45#8, 0x46#8, 0x50#8, 0x11#8]

/-- The opcodes whose handler uses byte a as a register index (30_encoding.md R89). -/
def usesRegA : List Byte := [0x82#8, 0x47#8, 0xA0#8, 0xA2#8, 0x45#8, 0x46#8, 0x50#8]

/-- The opcodes whose handler uses byte b as a register index (30_encoding.md R89). -/
def usesRegB : List Byte := [0xA0#8, 0xA2#8]

/-- `s` with a fatal condition taken, written out: run is Faulted with the kind and the pc, the rest is as it was
(60_exceptions.md R201, R207). -/
def faultedWith (s : State) (k : FaultKind) : State := { s with run := .faulted ⟨k, s.pc⟩ }

/-- Every cell of Memory reads in `t` as in `s`. -/
def SameMemory (s t : State) : Prop := ∀ x, Memory.read t.mem x = Memory.read s.mem x

/-- Every cell of Memory but `addr` reads in `t` as in `s`. -/
def SameMemoryBut (addr : Nat) (s t : State) : Prop := ∀ x, x ≠ addr → Memory.read t.mem x = Memory.read s.mem x

/-- The fatal conditions a run can record for an instruction at `pc` (60_exceptions.md R200, R203, R205;
40_fetch_execute.md R112). -/
def FaultKind.ArisesAt (pc : Nat) : FaultKind → Prop
  | .unknownOpcode op => pc ≤ 253 ∧ op ∉ opcodeBytes
  | .memoryRangeFault addr => 254 ≤ pc ∧ addr = 256
  | .registerIndexFault i => pc ≤ 253 ∧ 8 ≤ i.toNat
  | .aluUnsupportedOperation _ => False
  | .aluDivideByZero => False

/-- A legal state of the core: Memory in canonical form, pc in 0..256 (10_state.md R26), and a fault record that names
the pc and a fatal condition that can arise there (60_exceptions.md R201). -/
structure State.Inv (s : State) : Prop where
  mem_wf : Memory.wf s.mem = true
  pc_le : s.pc ≤ 256
  fault_arises : ∀ f, s.run = .faulted f → f.pc = s.pc ∧ f.kind.ArisesAt s.pc

/-- The text of a byte in a program file: eight binary digits, the first one bit 7 (00_scope.md R11). -/
def byteText (v : Byte) : List Char := (List.range 8).map fun k => if v.getLsbD (7 - k) then '1' else '0'

/-- The tokens of a program file: what stands on each line before the first `#`, without the white space around it,
where that is not empty (30_encoding.md R92). -/
def fileTokens (lines : List (List Char)) : List (List Char) :=
  (lines.map fun line => strip (beforeComment line)).filter fun t => t ≠ []

end Sys2Proof.Machine
end

