-- ==== Sys2Proof/Certificates/Slice0/Obligations.lean ====
section
/-! DEFINITION. The statements about the model. Each docstring names the rule of the spec that the statement
formalises, or the spec's sentences it rests on. -/

open Sys2Proof Sys2Proof.Machine

/-! ## Reset, launch, loader, host interface -/

/-- 10_state.md R36 for the empty program image: the state right after reset, every field. -/
def Obligations.ResetStateIsConstruction : Prop :=
  State.reset = launch [] ∧ (∀ x, Memory.read State.reset.mem x = 0#8) ∧
    (∀ r : RegIdx, r ≠ 7 → State.reset.reg r = 0#8) ∧ State.reset.sp = 255#8 ∧ State.reset.pc = 0 ∧
    State.reset.run = .running ∧ State.reset.out = []

/-- 10_state.md R36: the value of every piece of state when the run loop starts, for every program image that fits. -/
def Obligations.LaunchStateHoldsImage : Prop :=
  ∀ image : List Byte, image.length ≤ 256 →
    (∀ (k : Nat) (h : k < image.length), Memory.read (launch image).mem k = image[k]) ∧
    (∀ x, image.length ≤ x → x < 256 → Memory.read (launch image).mem x = 0#8) ∧
    (∀ r : RegIdx, r ≠ 7 → (launch image).reg r = 0#8) ∧ (launch image).sp = 255#8 ∧
    (launch image).pc = 0 ∧ (launch image).run = .running ∧ (launch image).out = []

/-- 70_reset_and_hazards.md R236: a file whose tokens are the texts of the bytes of an image that fits, on lines with any
comments, blank lines and white space, loads to exactly the Memory of the launch state of that image. The white space
that is stripped is the model's choice, log 8. -/
def Obligations.LoaderBuildsLaunchMemory : Prop :=
  ∀ (lines : List (List Char)) (image : List Byte), fileTokens lines = image.map byteText → image.length ≤ 256 →
    loadLines lines 0 State.reset.mem = .ok (launch image).mem

/-- 70_reset_and_hazards.md R236 and R238: a file with a malformed token or with more than 256 tokens does not load. The
white space that is stripped is the model's choice, log 8. -/
def Obligations.LoaderRejectsBadFiles : Prop :=
  ∀ (lines : List (List Char)) (m : Memory),
    (∃ t ∈ fileTokens lines, ∀ v : Byte, t ≠ byteText v) ∨ 256 < (fileTokens lines).length →
    ∃ e, loadLines lines 0 m = .error e

/-- 70_reset_and_hazards.md R237: exactly one argument, else a UsageError with status 1, before any load and so whatever
the file system; with one argument there is no UsageError. -/
def Obligations.ProcessEntryNeedsOneArgument : Prop :=
  ∀ (args : List String) (readFile : String → Option (List Char)),
    (args.length ≠ 1 → ∃ e, processEntry args readFile = .error e ∧ e = .usageError ∧ e.exitStatus = 1) ∧
    (args.length = 1 → processEntry args readFile ≠ .error .usageError)

/-- 10_state.md R29: exit status 0 for a run that ends Halted, 1 for one that ends Faulted; no status while Running. -/
def Obligations.ExitStatusOfRunState : Prop :=
  ∀ s : State, (s.run = .halted → s.exitStatus = some 0) ∧ (∀ f, s.run = .faulted f → s.exitStatus = some 1) ∧
    (s.run = .running → s.exitStatus = none)

/-! ## The instructions, one by one -/

/-- 41_system.md R130. -/
def Obligations.HltHalts : Prop :=
  ∀ (a b : Byte) (s : State),
    decode 0x01#8 a b = .ok .hlt ∧
    (∃ t, exec .hlt s = .next t ∧ t.run = .halted ∧ t.pc = s.pc + 1 ∧
      (∀ q, t.reg q = s.reg q) ∧ SameMemory s t ∧ t.out = s.out ∧
      t.exitStatus = some 0 ∧ ∀ u, step t ≠ .next u) ∧
    (s.run = .running → 254 ≤ s.pc → s.pc ≤ 256 → step s = .next (faultedWith s (.memoryRangeFault 256)))

/-- 42_data.md R140 and R141. -/
def Obligations.LdiLoadsImmediate : Prop :=
  ∀ (a b : Byte) (s : State),
    decode 0x82#8 a b = .ok (.ldi a b) ∧
    (∀ r : RegIdx, a.toNat = r.val → ∃ t, exec (.ldi a b) s = .next t ∧ t.reg r = b ∧ t.pc = s.pc + 3 ∧
      (∀ q, q ≠ r → t.reg q = s.reg q) ∧ SameMemory s t ∧ t.run = s.run ∧ t.out = s.out) ∧
    (8 ≤ a.toNat → exec (.ldi a b) s = .next (faultedWith s (.registerIndexFault a)))

/-- 42_data.md R142, with its corner case that no other instruction writes the output port. -/
def Obligations.PrnOutputsRegister : Prop :=
  ∀ (a b : Byte) (s : State),
    decode 0x47#8 a b = .ok (.prn a) ∧
    (∀ r : RegIdx, a.toNat = r.val → ∃ t, exec (.prn a) s = .next t ∧ t.out = s.out ++ [s.reg r] ∧ t.pc = s.pc + 2 ∧
      (∀ q, t.reg q = s.reg q) ∧ SameMemory s t ∧ t.run = s.run) ∧
    (8 ≤ a.toNat → exec (.prn a) s = .next (faultedWith s (.registerIndexFault a))) ∧
    ∀ i : Instr, (∀ a', i ≠ .prn a') → ∃ t, exec i s = .next t ∧ t.out = s.out

/-- 43_alu.md R155, with R151: the sum is reduced modulo 256. -/
def Obligations.AddAddsModulo256 : Prop :=
  ∀ (a b : Byte) (s : State),
    decode 0xA0#8 a b = .ok (.add a b) ∧
    (∀ ra rb : RegIdx, a.toNat = ra.val → b.toNat = rb.val → ∃ t, exec (.add a b) s = .next t ∧
      (t.reg ra).toNat = ((s.reg ra).toNat + (s.reg rb).toNat) % 256 ∧ t.pc = s.pc + 3 ∧
      (∀ q, q ≠ ra → t.reg q = s.reg q) ∧ SameMemory s t ∧ t.run = s.run ∧ t.out = s.out) ∧
    (8 ≤ a.toNat → exec (.add a b) s = .next (faultedWith s (.registerIndexFault a))) ∧
    (a.toNat < 8 → 8 ≤ b.toNat → exec (.add a b) s = .next (faultedWith s (.registerIndexFault b)))

/-- 43_alu.md R157, with R151: the product is reduced modulo 256. -/
def Obligations.MulMultipliesModulo256 : Prop :=
  ∀ (a b : Byte) (s : State),
    decode 0xA2#8 a b = .ok (.mul a b) ∧
    (∀ ra rb : RegIdx, a.toNat = ra.val → b.toNat = rb.val → ∃ t, exec (.mul a b) s = .next t ∧
      (t.reg ra).toNat = ((s.reg ra).toNat * (s.reg rb).toNat) % 256 ∧ t.pc = s.pc + 3 ∧
      (∀ q, q ≠ ra → t.reg q = s.reg q) ∧ SameMemory s t ∧ t.run = s.run ∧ t.out = s.out) ∧
    (8 ≤ a.toNat → exec (.mul a b) s = .next (faultedWith s (.registerIndexFault a))) ∧
    (a.toNat < 8 → 8 ≤ b.toNat → exec (.mul a b) s = .next (faultedWith s (.registerIndexFault b)))

/-- 44_stack.md R170. The cell stored to is `s.pushAddr`, the decremented SP that the meaning uses. PUSH R7 stores the
decremented SP. -/
def Obligations.PushStoresBelowStackPointer : Prop :=
  ∀ (a b : Byte) (s : State),
    decode 0x45#8 a b = .ok (.push a) ∧
    (∀ r : RegIdx, a.toNat = r.val → ∃ t, exec (.push a) s = .next t ∧
      t.sp = s.pushAddr ∧ t.sp.toNat = (s.sp.toNat + 255) % 256 ∧
      Memory.read t.mem s.pushAddr.toNat = (if r = 7 then s.pushAddr else s.reg r) ∧
      SameMemoryBut s.pushAddr.toNat s t ∧ t.pc = s.pc + 2 ∧
      (∀ q, q ≠ 7 → t.reg q = s.reg q) ∧ t.run = s.run ∧ t.out = s.out) ∧
    (8 ≤ a.toNat → exec (.push a) s = .next (faultedWith s (.registerIndexFault a)))

/-- 44_stack.md R171. POP R7 leaves the popped byte plus 1 in SP. -/
def Obligations.PopLoadsFromStackPointer : Prop :=
  ∀ (a b : Byte) (s : State),
    decode 0x46#8 a b = .ok (.pop a) ∧
    (∀ r : RegIdx, a.toNat = r.val → ∃ t, exec (.pop a) s = .next t ∧
      (r ≠ 7 → t.reg r = Memory.read s.mem s.sp.toNat ∧ t.sp.toNat = (s.sp.toNat + 1) % 256) ∧
      (r = 7 → t.sp.toNat = ((Memory.read s.mem s.sp.toNat).toNat + 1) % 256) ∧ t.pc = s.pc + 2 ∧
      (∀ q, q ≠ r → q ≠ 7 → t.reg q = s.reg q) ∧ SameMemory s t ∧ t.run = s.run ∧ t.out = s.out) ∧
    (8 ≤ a.toNat → exec (.pop a) s = .next (faultedWith s (.registerIndexFault a)))

/-- 45_subroutine.md R180. CALL executes only with pc at most 253 (R181), where pc + 2 is a byte; the cell stored to is
`s.pushAddr`. CALL R7 jumps to the decremented SP. -/
def Obligations.CallPushesReturnAddressAndJumps : Prop :=
  ∀ (a b : Byte) (s : State),
    decode 0x50#8 a b = .ok (.call a) ∧
    (∀ r : RegIdx, a.toNat = r.val → s.pc ≤ 253 → ∃ t, exec (.call a) s = .next t ∧
      t.sp = s.pushAddr ∧ t.sp.toNat = (s.sp.toNat + 255) % 256 ∧
      (Memory.read t.mem s.pushAddr.toNat).toNat = s.pc + 2 ∧ SameMemoryBut s.pushAddr.toNat s t ∧
      t.pc = (if r = 7 then s.pushAddr else s.reg r).toNat ∧
      (∀ q, q ≠ 7 → t.reg q = s.reg q) ∧ t.run = s.run ∧ t.out = s.out ∧
      (t.run = .running → 254 ≤ t.pc → step t = .next (faultedWith t (.memoryRangeFault 256)))) ∧
    (8 ≤ a.toNat → exec (.call a) s = .next (faultedWith s (.registerIndexFault a)))

/-- 45_subroutine.md R183. -/
def Obligations.RetPopsProgramCounter : Prop :=
  ∀ (a b : Byte) (s : State),
    decode 0x11#8 a b = .ok .ret ∧
    (∃ t, exec .ret s = .next t ∧ t.pc = (Memory.read s.mem s.sp.toNat).toNat ∧
      t.sp.toNat = (s.sp.toNat + 1) % 256 ∧ (∀ q, q ≠ 7 → t.reg q = s.reg q) ∧ SameMemory s t ∧
      t.run = s.run ∧ t.out = s.out ∧
      (t.run = .running → 254 ≤ t.pc → step t = .next (faultedWith t (.memoryRangeFault 256))))

/-! ## Registers, operands, the ALU, the stack -/

/-- 10_state.md section 2 (R22, marked there as derived): register 7 is SP, for every instruction with a register operand
and, for ADD and MUL, in either place, whatever register the other operand names. -/
def Obligations.OperandSevenIsStackPointer : Prop :=
  ∀ (v : Byte) (s : State),
    (∃ t, exec (.ldi 7#8 v) s = .next t ∧ t.sp = v) ∧
    (∃ t, exec (.prn 7#8) s = .next t ∧ t.out = s.out ++ [s.sp]) ∧
    (∀ (x : Byte) (r : RegIdx), x.toNat = r.val →
      (∃ t, exec (.add 7#8 x) s = .next t ∧ t.sp.toNat = (s.sp.toNat + (s.reg r).toNat) % 256) ∧
      (∃ t, exec (.add x 7#8) s = .next t ∧ (t.reg r).toNat = ((s.reg r).toNat + s.sp.toNat) % 256) ∧
      (∃ t, exec (.mul 7#8 x) s = .next t ∧ t.sp.toNat = (s.sp.toNat * (s.reg r).toNat) % 256) ∧
      (∃ t, exec (.mul x 7#8) s = .next t ∧ (t.reg r).toNat = ((s.reg r).toNat * s.sp.toNat) % 256)) ∧
    (∃ t, exec (.push 7#8) s = .next t ∧ t.sp = s.pushAddr ∧ Memory.read t.mem t.sp.toNat = t.sp) ∧
    (∃ t, exec (.pop 7#8) s = .next t ∧ t.sp.toNat = ((Memory.read s.mem s.sp.toNat).toNat + 1) % 256) ∧
    (∃ t, exec (.call 7#8) s = .next t ∧ t.sp = s.pushAddr ∧ t.pc = t.sp.toNat) ∧
    (∃ t, exec .ret s = .next t ∧ t.sp.toNat = (s.sp.toNat + 1) % 256)

/-- 40_fetch_execute.md R117 and R118, 60_exceptions.md R204, 30_encoding.md R89: the first register operand that is 8 or
more is reported and nothing else changes; with no such operand the instruction completes. -/
def Obligations.RegisterOperandsAreCheckedFirst : Prop :=
  ∀ (i : Instr) (s : State),
    (∀ x, i.regOperands.find? (fun y => decide (8 ≤ y.toNat)) = some x →
      exec i s = .next (faultedWith s (.registerIndexFault x))) ∧
    (i.regOperands.find? (fun y => decide (8 ≤ y.toNat)) = none →
      ∃ t, exec i s = .next t ∧ (if i = .hlt then t.run = .halted else t.run = s.run))

/-- 10_state.md R25: the table of the registers each instruction writes and reads, both ways. A legal instruction completes,
and no register outside the table is written or has an influence; and every register of the table has: one it writes
changes in some state, and two states that differ in nothing but one it reads lead to different outcomes. -/
def Obligations.RegisterUseMatchesTable : Prop :=
  ∀ i : Instr, i.wf = true →
    (∀ s : State, ∃ t, exec i s = .next t ∧ ∀ r, ¬ i.writesReg r → t.reg r = s.reg r) ∧
    (∀ s u : State, u.mem = s.mem → u.pc = s.pc → u.run = s.run → u.out = s.out →
      (∀ r, i.readsReg r → u.reg r = s.reg r) →
      ∃ t v, exec i s = .next t ∧ exec i u = .next v ∧ v.mem = t.mem ∧ v.pc = t.pc ∧ v.run = t.run ∧ v.out = t.out ∧
        ∀ r, i.writesReg r → v.reg r = t.reg r) ∧
    (∀ r, i.writesReg r → ∃ s t, exec i s = .next t ∧ t.reg r ≠ s.reg r) ∧
    (∀ r, i.readsReg r → ∃ s u t v, u.mem = s.mem ∧ u.pc = s.pc ∧ u.run = s.run ∧ u.out = s.out ∧
      (∀ q, q ≠ r → u.reg q = s.reg q) ∧ exec i s = .next t ∧ exec i u = .next v ∧
      (¬ SameMemory t v ∨ v.pc ≠ t.pc ∨ v.out ≠ t.out ∨ ∃ q, i.writesReg q ∧ v.reg q ≠ t.reg q))

/-- 40_fetch_execute.md R116: a handler that completes advances pc by the instruction's length, 1 + operand count, or,
for CALL and RET, overwrites it; one that raises a fatal condition leaves it. -/
def Obligations.HandlersUpdateProgramCounter : Prop :=
  ∀ (i : Instr) (s : State), ∃ t, exec i s = .next t ∧
    (i.wf = false → t.pc = s.pc) ∧
    (∀ (a : Byte) (r : RegIdx), i = .call a → a.toNat = r.val →
      t.pc = (if r = 7 then s.pushAddr else s.reg r).toNat) ∧
    (i = .ret → t.pc = (Memory.read s.mem s.sp.toNat).toNat) ∧
    (i.wf = true → (∀ a, i ≠ .call a) → i ≠ .ret → t.pc = s.pc + 1 + i.operandBytes.length)

/-- 43_alu.md section 1 (R150, R152): the ALU in full, by direct invocation under the name of the operation, on registers
that have passed the register-index check. That the names are the strings ADD, SUB, MUL and DIV in capitals, and every
other string an unsupported name, is the model's choice, log 6. -/
def Obligations.AluAppliesNamedOperation : Prop :=
  ∀ (a b : Byte) (ra rb : RegIdx) (s : State), a.toNat = ra.val → b.toNat = rb.val →
    (∃ t, aluApply "ADD" a b s = .ok t ∧ (t.reg ra).toNat = ((s.reg ra).toNat + (s.reg rb).toNat) % 256 ∧
      (∀ q, q ≠ ra → t.reg q = s.reg q) ∧ SameMemory s t ∧ t.pc = s.pc ∧ t.run = s.run ∧ t.out = s.out) ∧
    (∃ t, aluApply "SUB" a b s = .ok t ∧ (t.reg ra).toNat = ((s.reg ra).toNat + (256 - (s.reg rb).toNat)) % 256 ∧
      (∀ q, q ≠ ra → t.reg q = s.reg q) ∧ SameMemory s t ∧ t.pc = s.pc ∧ t.run = s.run ∧ t.out = s.out) ∧
    (∃ t, aluApply "MUL" a b s = .ok t ∧ (t.reg ra).toNat = ((s.reg ra).toNat * (s.reg rb).toNat) % 256 ∧
      (∀ q, q ≠ ra → t.reg q = s.reg q) ∧ SameMemory s t ∧ t.pc = s.pc ∧ t.run = s.run ∧ t.out = s.out) ∧
    ((s.reg rb).toNat ≠ 0 →
      ∃ t, aluApply "DIV" a b s = .ok t ∧ (t.reg ra).toNat = (s.reg ra).toNat / (s.reg rb).toNat ∧
        (∀ q, q ≠ ra → t.reg q = s.reg q) ∧ SameMemory s t ∧ t.pc = s.pc ∧ t.run = s.run ∧ t.out = s.out) ∧
    ((s.reg rb).toNat = 0 → aluApply "DIV" a b s = .error .aluDivideByZero) ∧
    (∀ name, name ∉ ["ADD", "SUB", "MUL", "DIV"] → aluApply name a b s = .error (.aluUnsupportedOperation name))

/-- 43_alu.md R154 (marked there as derived from R152): the laws of ADD and MUL on the ALU's results. -/
def Obligations.AluArithmeticLaws : Prop :=
  ∀ p q r : Byte,
    aluResult .add p q = aluResult .add q p ∧ aluResult .mul p q = aluResult .mul q p ∧
    (∀ x y, aluResult .add p q = .ok x → aluResult .add q r = .ok y → aluResult .add x r = aluResult .add p y) ∧
    (∀ x y, aluResult .mul p q = .ok x → aluResult .mul q r = .ok y → aluResult .mul x r = aluResult .mul p y) ∧
    aluResult .add p 0#8 = .ok p ∧ aluResult .mul p 1#8 = .ok p ∧ aluResult .mul p 0#8 = .ok 0#8

/-- 20_memory.md R61 and R62: the two stack primitives, for every SP, with the wrap at 0 and 255 and no fault. -/
def Obligations.StackPrimitivesWrap : Prop :=
  ∀ (v : Byte) (s : State),
    (∃ t, s.pushByte v = .ok t ∧ t.sp.toNat = (s.sp.toNat + 255) % 256 ∧ Memory.read t.mem t.sp.toNat = v ∧
      SameMemoryBut t.sp.toNat s t ∧ (∀ q, q ≠ 7 → t.reg q = s.reg q) ∧ t.pc = s.pc ∧ t.run = s.run ∧ t.out = s.out) ∧
    (∃ t, s.popByte = .ok (Memory.read s.mem s.sp.toNat, t) ∧ t.sp.toNat = (s.sp.toNat + 1) % 256 ∧
      SameMemory s t ∧ (∀ q, q ≠ 7 → t.reg q = s.reg q) ∧ t.pc = s.pc ∧ t.run = s.run ∧ t.out = s.out) ∧
    (s.sp = 0#8 → ∃ t, s.pushByte v = .ok t ∧ t.sp = 255#8 ∧ Memory.read t.mem 255 = v) ∧
    (s.sp = 255#8 → ∃ t, s.popByte = .ok (Memory.read s.mem 255, t) ∧ t.sp = 0#8)

/-- 44_stack.md R172 (its extension to every register and SP is marked there as derived): PUSH then POP of the same
register gives back the register and SP, for every register, R7 among them. -/
def Obligations.PushThenPopRestores : Prop :=
  ∀ (a : Byte) (r : RegIdx) (s : State), a.toNat = r.val →
    ∃ t u, exec (.push a) s = .next t ∧ exec (.pop a) t = .next u ∧ u.reg r = s.reg r ∧ u.sp = s.sp ∧
      ∀ q, u.reg q = s.reg q

/-- 45_subroutine.md R184 (marked there as derived from R180 and R183): a RET in any later state with the SP that CALL
left and the cell there unchanged returns to the call site + 2, and gives back the SP from before the CALL. -/
def Obligations.RetAfterCallReturnsBehindCall : Prop :=
  ∀ (a : Byte) (r : RegIdx) (s : State), a.toNat = r.val → s.pc ≤ 253 →
    ∃ t, exec (.call a) s = .next t ∧
      ∀ u : State, u.sp = t.sp → Memory.read u.mem u.sp.toNat = Memory.read t.mem t.sp.toNat →
        ∃ v, exec .ret u = .next v ∧ v.pc = s.pc + 2 ∧ v.sp = s.sp

/-! ## Memory -/

/-- 20_memory.md section 2: a read gives the byte (R52), a write sets that cell alone (R54), an address that does not exist
faults first (R53); and an address taken from a register passes the check, a sentence that R53 marks as derived. -/
def Obligations.MemoryPrimitivesCheckRange : Prop :=
  ∀ (s : State) (addr : Nat) (v : Byte),
    (256 ≤ addr → s.memRead addr = .error (.memoryRangeFault addr) ∧
      s.memWrite addr v = .error (.memoryRangeFault addr)) ∧
    (addr < 256 → s.memRead addr = .ok (Memory.read s.mem addr) ∧
      ∃ t, s.memWrite addr v = .ok t ∧ t.memRead addr = .ok v ∧ SameMemoryBut addr s t ∧
        t.regs = s.regs ∧ t.pc = s.pc ∧ t.run = s.run ∧ t.out = s.out) ∧
    ∀ r : RegIdx, s.memRead (s.reg r).toNat = .ok (Memory.read s.mem (s.reg r).toNat)

/-- 20_memory.md R65 (marked there as derived from R52 and R54): a read gives the value of the latest write to its cell,
or what the cell held if that write went elsewhere. -/
def Obligations.ReadReturnsLatestWrite : Prop :=
  ∀ (s t : State) (a x : Nat) (v : Byte), s.memWrite a v = .ok t →
    t.memRead x = if x = a then .ok v else s.memRead x

/-- The model's representation of Memory (log 12): two memories in canonical form whose cells all read alike are equal
data. -/
def Obligations.CanonicalMemoryIsUnique : Prop :=
  ∀ m n : Memory, Memory.wf m = true → Memory.wf n = true → (∀ x, Memory.read m x = Memory.read n x) → m = n

/-- 20_memory.md R55: which cells a step reads and writes, both ways. No cell outside the table: two running cores that
agree on registers, pc, output, the three fetched cells and, for POP and RET, the cell at SP, do the same, cell for cell;
and the only cell a step can change is the pushed one, by PUSH or CALL. Every cell of the table: the fetch reads all
three, the third whatever the opcode (at pc 254 no step gets past it); PUSH and CALL write the pushed cell; POP and RET
go on with what the cell at SP holds. -/
def Obligations.StepMemoryAccessMatchesTable : Prop :=
  (∀ s u : State, s.run = .running → u.run = .running → u.regs = s.regs → u.pc = s.pc → u.out = s.out →
    (∀ x, s.pc ≤ x → x ≤ s.pc + 2 → Memory.read u.mem x = Memory.read s.mem x) →
    (Memory.read s.mem s.pc = 0x46#8 ∨ Memory.read s.mem s.pc = 0x11#8 →
      Memory.read u.mem s.sp.toNat = Memory.read s.mem s.sp.toNat) →
    ∃ t v, step s = .next t ∧ step u = .next v ∧ v.regs = t.regs ∧ v.pc = t.pc ∧ v.run = t.run ∧ v.out = t.out ∧
      (∀ x, Memory.read u.mem x = Memory.read s.mem x → Memory.read v.mem x = Memory.read t.mem x) ∧
      (∀ x, Memory.read t.mem x ≠ Memory.read s.mem x →
        (Memory.read s.mem s.pc = 0x45#8 ∨ Memory.read s.mem s.pc = 0x50#8) ∧ x = s.pushAddr.toNat)) ∧
  (∀ s : State, s.run = .running →
    (s.pc = 254 → step s = .next (faultedWith s (.memoryRangeFault (s.pc + 2)))) ∧
    (s.pc ≤ 253 →
      s.fetch = .ok (Memory.read s.mem s.pc, Memory.read s.mem (s.pc + 1), Memory.read s.mem (s.pc + 2)) ∧
      (∀ r : RegIdx, (Memory.read s.mem (s.pc + 1)).toNat = r.val →
        (Memory.read s.mem s.pc = 0x45#8 → ∃ t, step s = .next t ∧
          Memory.read t.mem s.pushAddr.toNat = (if r = 7 then s.pushAddr else s.reg r)) ∧
        (Memory.read s.mem s.pc = 0x50#8 → ∃ t, step s = .next t ∧
          (Memory.read t.mem s.pushAddr.toNat).toNat = s.pc + 2) ∧
        (Memory.read s.mem s.pc = 0x46#8 → ∃ t, step s = .next t ∧
          t.reg r = Memory.read s.mem s.sp.toNat + (if r = 7 then 1#8 else 0#8))) ∧
      (Memory.read s.mem s.pc = 0x11#8 → ∃ t, step s = .next t ∧
        t.pc = (Memory.read s.mem s.sp.toNat).toNat)))

/-- 20_memory.md section 6 (R68, marked there as derived from R65 and 40_fetch_execute.md R111): a byte that PUSH stores at the
next instruction's address, and a return address that CALL stores at its own target, are what the next step fetches. -/
def Obligations.FetchSeesStoreOfPreviousStep : Prop :=
  ∀ (s : State) (r : RegIdx), s.run = .running → s.pc ≤ 253 → (Memory.read s.mem (s.pc + 1)).toNat = r.val →
    (Memory.read s.mem s.pc = 0x45#8 → s.pushAddr.toNat = s.pc + 2 → s.pc + 2 ≤ 253 →
      ∃ t a b, step s = .next t ∧ t.fetch = .ok ((if r = 7 then s.pushAddr else s.reg r), a, b)) ∧
    (Memory.read s.mem s.pc = 0x50#8 → (if r = 7 then s.pushAddr else s.reg r) = s.pushAddr → s.pushAddr.toNat ≤ 253 →
      ∃ t op a b, step s = .next t ∧ t.fetch = .ok (op, a, b) ∧ op.toNat = s.pc + 2)

/-! ## Encoding -/

/-- 40_fetch_execute.md R113, with 30_encoding.md R86: the nine opcode bytes are mapped to their instructions, by an
exact match of the whole byte, and no other byte is; and the lengths of R86. -/
def Obligations.OpcodeMapDecodes : Prop :=
  ∀ a b : Byte, (∀ op, op ∉ opcodeBytes → decode op a b = .error (.unknownOpcode op)) ∧
    decode 0x01#8 a b = .ok .hlt ∧ decode 0x82#8 a b = .ok (.ldi a b) ∧ decode 0x47#8 a b = .ok (.prn a) ∧
    decode 0xA0#8 a b = .ok (.add a b) ∧ decode 0xA2#8 a b = .ok (.mul a b) ∧ decode 0x45#8 a b = .ok (.push a) ∧
    decode 0x46#8 a b = .ok (.pop a) ∧ decode 0x50#8 a b = .ok (.call a) ∧ decode 0x11#8 a b = .ok .ret ∧
    Instr.hlt.length = 1 ∧ (Instr.ldi a b).length = 3 ∧ (Instr.prn a).length = 2 ∧ (Instr.add a b).length = 3 ∧
    (Instr.mul a b).length = 3 ∧ (Instr.push a).length = 2 ∧ (Instr.pop a).length = 2 ∧ (Instr.call a).length = 2 ∧
    Instr.ret.length = 1

/-- Words written out from 30_encoding.md R86 and R93, one per family, as bytes and as table words. -/
def Obligations.SampleWordsDecode : Prop :=
  decode 0b00000001#8 0xFF#8 0xFF#8 = .ok .hlt ∧
  decode 0b10000010#8 0b00000000#8 0b00001000#8 = .ok (.ldi 0#8 8#8) ∧
  decode 0b01000111#8 0b00000000#8 0b00000001#8 = .ok (.prn 0#8) ∧
  decode 0b10100010#8 0b00000000#8 0b00000001#8 = .ok (.mul 0#8 1#8) ∧
  decode 0b01000110#8 0b00000010#8 0b00000000#8 = .ok (.pop 2#8) ∧
  decode 0b01010000#8 0b00000011#8 0b00000000#8 = .ok (.call 3#8) ∧
  decodeTableWord 24 0x080082 = some (.ldi 0#8 8#8) ∧ decodeTableWord 8 0x11 = some .ret

/-- 30_encoding.md R80 and R81: an encoded instruction, with whatever bytes after it, decodes to itself and leaves
exactly those bytes; no operand bit is lost. -/
def Obligations.DecodeOfEncodeIsIdentity : Prop :=
  ∀ (i : Instr) (rest : List Byte), decodeBytes (encode i ++ rest) = .ok (i, rest)

/-- 30_encoding.md R81 and R84: the bytes that decode to an instruction are its encoding followed by ignored bytes, so
every decoded instruction has one encoding. -/
def Obligations.EncodeOfDecodeIsPrefix : Prop :=
  ∀ (op a b : Byte) (i : Instr), decode op a b = .ok i →
    encode i = [op, a, b].take i.length ∧ ∀ a' b', (1 < i.length → a' = a) → (2 < i.length → b' = b) →
      decode op a' b' = .ok i

/-! ## The step -/

/-- 40_fetch_execute.md R111, the loop body: the first of the addresses pc, pc+1, pc+2 that does not exist is reported;
then an opcode byte that is not in the table; and when the three bytes decode, the step is the handler of the decoded
instruction and nothing more. -/
def Obligations.StepRunsDecodedInstruction : Prop :=
  ∀ s : State, s.run = .running →
    (256 ≤ s.pc → step s = .next (faultedWith s (.memoryRangeFault s.pc))) ∧
    (s.pc = 255 → step s = .next (faultedWith s (.memoryRangeFault (s.pc + 1)))) ∧
    (s.pc = 254 → step s = .next (faultedWith s (.memoryRangeFault (s.pc + 2)))) ∧
    (s.pc ≤ 253 → Memory.read s.mem s.pc ∉ opcodeBytes →
      step s = .next (faultedWith s (.unknownOpcode (Memory.read s.mem s.pc)))) ∧
    (∀ i, s.pc ≤ 253 →
      decode (Memory.read s.mem s.pc) (Memory.read s.mem (s.pc + 1)) (Memory.read s.mem (s.pc + 2)) = .ok i →
      step s = exec i s)

/-- 40_fetch_execute.md R111 with 30_encoding.md R80: when the encoding of an instruction stands at pc, whatever byte
stands behind it, the step runs that instruction. -/
def Obligations.StepRunsEncodedInstruction : Prop :=
  ∀ (s : State) (i : Instr), s.run = .running → s.pc ≤ 253 →
    (∀ (k : Nat) (h : k < (encode i).length), Memory.read s.mem (s.pc + k) = (encode i)[k]) →
    step s = exec i s

/-- 60_exceptions.md section 2 (R206, marked there as derived from R111 and R117): the checks of a step in their order; the
first that fails is reported, and a step that passes all of them completes without a fault. -/
def Obligations.StepReportsFirstFailingCheck : Prop :=
  ∀ (s : State) (op a b : Byte), s.run = .running → op = Memory.read s.mem s.pc →
    a = Memory.read s.mem (s.pc + 1) → b = Memory.read s.mem (s.pc + 2) →
    (256 ≤ s.pc → step s = .next (faultedWith s (.memoryRangeFault s.pc))) ∧
    (s.pc = 255 → step s = .next (faultedWith s (.memoryRangeFault (s.pc + 1)))) ∧
    (s.pc = 254 → step s = .next (faultedWith s (.memoryRangeFault (s.pc + 2)))) ∧
    (s.pc ≤ 253 → op ∉ opcodeBytes → step s = .next (faultedWith s (.unknownOpcode op))) ∧
    (s.pc ≤ 253 → op ∈ usesRegA → 8 ≤ a.toNat → step s = .next (faultedWith s (.registerIndexFault a))) ∧
    (s.pc ≤ 253 → op ∈ usesRegB → a.toNat < 8 → 8 ≤ b.toNat →
      step s = .next (faultedWith s (.registerIndexFault b))) ∧
    (s.pc ≤ 253 → op ∈ opcodeBytes → (op ∈ usesRegA → a.toNat < 8) → (op ∈ usesRegB → b.toNat < 8) →
      ∃ t, step s = .next t ∧ ∀ f, t.run ≠ .faulted f)

/-- 40_fetch_execute.md R112 (marked there as derived): from pc 254, 255 or 256 every step reports address 256, whatever
the bytes in Memory. -/
def Obligations.FetchNearTopFaultsAt256 : Prop :=
  ∀ s : State, s.run = .running → 254 ≤ s.pc → s.pc ≤ 256 → step s = .next (faultedWith s (.memoryRangeFault 256))

/-- 30_encoding.md R88, 40_fetch_execute.md R114, 60_exceptions.md R202: any opcode byte but the nine, 0x00 among them,
raises UnknownOpcode with that byte and the pc, and nothing else changes. -/
def Obligations.UnknownOpcodeFaults : Prop :=
  (∀ s : State, s.run = .running → s.pc ≤ 253 →
    Memory.read s.mem s.pc ∉ [0x01#8, 0x11#8, 0x45#8, 0x46#8, 0x47#8, 0x50#8, 0x82#8, 0xA0#8, 0xA2#8] →
    ∃ t, step s = .next t ∧ t.run = .faulted ⟨.unknownOpcode (Memory.read s.mem s.pc), s.pc⟩ ∧ t.mem = s.mem ∧
      t.regs = s.regs ∧ t.pc = s.pc ∧ t.out = s.out) ∧
  (0x00#8 : Byte) ∉ [0x01#8, 0x11#8, 0x45#8, 0x46#8, 0x47#8, 0x50#8, 0x82#8, 0xA0#8, 0xA2#8]

/-- 10_state.md R27: the core starts Running; a running core has a step, after which it is Running still, or Halted, by
HLT alone, or Faulted, by a fatal condition alone. -/
def Obligations.RunningStepEndsInOneOfThreeWays : Prop :=
  State.reset.run = .running ∧
  ∀ s : State, s.run = .running → ∃ t, step s = .next t ∧
    (t.run = .running ∨ (s.pc ≤ 253 ∧ Memory.read s.mem s.pc = 0x01#8 ∧ t.run = .halted) ∨
      ((∃ f, t.run = .faulted f) ∧
        (254 ≤ s.pc ∨ Memory.read s.mem s.pc ∉ opcodeBytes ∨
          (Memory.read s.mem s.pc ∈ usesRegA ∧ 8 ≤ (Memory.read s.mem (s.pc + 1)).toNat) ∨
          (Memory.read s.mem s.pc ∈ usesRegB ∧ 8 ≤ (Memory.read s.mem (s.pc + 2)).toNat))))

/-- 10_state.md R28: in Halted and in Faulted the core has no step. -/
def Obligations.EndedCoreHasNoStep : Prop :=
  ∀ s : State, (s.run = .halted ∨ ∃ f, s.run = .faulted f) → ∀ t, step s ≠ .next t

/-- 40_fetch_execute.md R119: a step that ends Faulted changes run alone, and its record
holds the pc of the instruction that faulted. -/
def Obligations.FatalConditionsArePrecise : Prop :=
  ∀ (s t : State) (f : FaultRecord), s.run = .running → step s = .next t → t.run = .faulted f →
    f.pc = s.pc ∧ t.pc = s.pc ∧ t.mem = s.mem ∧ t.regs = s.regs ∧ t.out = s.out

/-- 10_state.md R31: the output port starts empty, a completed PRN appends one byte, the register's, and no other step
writes it. -/
def Obligations.OnlyPrnWritesOutput : Prop :=
  State.reset.out = [] ∧
  ∀ (s : State), s.run = .running → ∃ t, step s = .next t ∧
    (∀ r : RegIdx, s.pc ≤ 253 → Memory.read s.mem s.pc = 0x47#8 → (Memory.read s.mem (s.pc + 1)).toNat = r.val →
      t.out = s.out ++ [s.reg r]) ∧
    (254 ≤ s.pc ∨ Memory.read s.mem s.pc ≠ 0x47#8 ∨ 8 ≤ (Memory.read s.mem (s.pc + 1)).toNat → t.out = s.out)

/-- 40_fetch_execute.md R121 (marked there as derived): a step depends only on Memory, registers and pc. Two running
cores that agree on these agree after the step, and append the same bytes to whatever they have output. -/
def Obligations.StepDependsOnMemoryRegistersPc : Prop :=
  ∀ s u : State, s.run = .running → u.run = .running → u.mem = s.mem → u.regs = s.regs → u.pc = s.pc →
    ∃ t v w, step s = .next t ∧ step u = .next v ∧ v.mem = t.mem ∧ v.regs = t.regs ∧ v.pc = t.pc ∧ v.run = t.run ∧
      t.out = s.out ++ w ∧ v.out = u.out ++ w

/-! ## Invariants and runs -/

/-- The state after reset is legal (10_state.md R26, R36). That a legal state's Memory is in canonical form is the model's
choice of representation, log 12. -/
def Obligations.ResetIsLegal : Prop := State.reset.Inv

/-- The launch state of every program image that fits is legal (10_state.md R26, R36). That a legal state's Memory is in
canonical form is the model's choice of representation, log 12. -/
def Obligations.LaunchIsLegal : Prop :=
  ∀ image : List Byte, image.length ≤ 256 → (launch image).Inv

/-- Every step keeps the legal state: Memory stays in canonical form (the model's choice of representation, log 12), pc
stays in 0..256 (10_state.md R26), and a fault record names the pc and a fatal condition that can arise there
(60_exceptions.md R201, R203, R205). -/
def Obligations.StepKeepsLegalState : Prop :=
  ∀ s t : State, s.Inv → step s = .next t → t.Inv

/-- 60_exceptions.md R203 and R205 (marked in part as derived): whatever the program image, no run records an ALU fault,
and a recorded MemoryRangeFault names address 256. -/
def Obligations.RunsRecordOnlyReachableFaults : Prop :=
  ∀ (image : List Byte) (n : Nat) (f : FaultRecord), image.length ≤ 256 →
    (runFor n (launch image)).run = .faulted f →
    f.pc = (runFor n (launch image)).pc ∧ f.kind ≠ .aluDivideByZero ∧
      (∀ name, f.kind ≠ .aluUnsupportedOperation name) ∧ (∀ addr, f.kind = .memoryRangeFault addr → addr = 256)

/-- 10_state.md R28 and R30: a run that has reached Halted or Faulted stays there however much fuel is left, and a run has
a result exactly when it has ended. -/
def Obligations.EndedRunIsStable : Prop :=
  ∀ (s : State) (n k : Nat),
    ((runFor n s).ended = true → runFor (n + k) s = runFor n s) ∧
    ((runResult n s).isSome = true ↔ (runFor n s).ended = true)
end

