-- ==== Sys2Proof/Laws/Memory.lean ====
section
/-! SUPPORT. The laws of Memory as a canonical list: read after write, the canonical form is kept, and canonical
memories that read alike are equal. -/

namespace Sys2Proof.Machine

@[simp] theorem memSize_eq : Config.memSize = 256 := rfl
@[simp] theorem numRegs_eq : Config.numRegs = 8 := rfl
@[simp] theorem unlistedByte_eq : Config.unlistedByte = 0#8 := rfl

@[simp] theorem Memory.read_nil (x : Nat) : Memory.read [] x = 0#8 := rfl

theorem Memory.read_cons (b : Nat) (w : Byte) (m : Memory) (x : Nat) :
    Memory.read ((b, w) :: m) x = if x = b then w else Memory.read m x := rfl

theorem Memory.erase_cons (b : Nat) (w : Byte) (m : Memory) (a : Nat) :
    Memory.erase ((b, w) :: m) a = if b = a then Memory.erase m a else (b, w) :: Memory.erase m a := by
  by_cases h : b = a <;> simp [Memory.erase, h]

theorem Memory.read_erase (m : Memory) (a x : Nat) :
    Memory.read (Memory.erase m a) x = if x = a then 0#8 else Memory.read m x := by
  induction m with
  | nil => simp [Memory.erase]
  | cons c m ih =>
    obtain ⟨b, w⟩ := c
    rw [Memory.erase_cons]
    by_cases h : b = a
    · by_cases hx : x = a <;> simp_all [Memory.read_cons]
    · by_cases hx : x = b
      · subst hx; simp [h, Memory.read_cons]
      · simp [h, hx, Memory.read_cons, ih]

theorem Memory.read_insert (m : Memory) (a x : Nat) (v : Byte) :
    Memory.read (Memory.insert a v (Memory.erase m a)) x = if x = a then v else Memory.read m x := by
  induction m with
  | nil => simp [Memory.erase, Memory.insert, Memory.read_cons]
  | cons c m ih =>
    obtain ⟨b, w⟩ := c
    rw [Memory.erase_cons]
    by_cases h : b = a
    · subst h
      by_cases hx : x = b <;> simp_all [Memory.read_cons]
    · by_cases hlt : a < b
      · simp only [h, if_false, Memory.insert, hlt, if_true, Memory.read_cons, Memory.read_erase]
        by_cases hx : x = a <;> simp [hx]
      · simp only [h, if_false, Memory.insert, hlt, Memory.read_cons, ih]
        by_cases hx : x = b
        · subst hx; simp [h]
        · simp [hx]

/-- Read after write (20_memory.md R65): the written cell holds the value, every other cell what it held. -/
theorem Memory.read_write (m : Memory) (a x : Nat) (v : Byte) :
    Memory.read (Memory.write m a v) x = if x = a then v else Memory.read m x := by
  unfold Memory.write
  split
  · next h => rw [Memory.read_erase, h]
  · exact Memory.read_insert m a x v

@[simp] theorem Memory.read_write_same (m : Memory) (a : Nat) (v : Byte) :
    Memory.read (Memory.write m a v) a = v := by simp [Memory.read_write]

theorem Memory.read_write_other {a x : Nat} (h : x ≠ a) (m : Memory) (v : Byte) :
    Memory.read (Memory.write m a v) x = Memory.read m x := by simp [Memory.read_write, h]

theorem Memory.wfFrom_cons (lo b : Nat) (w : Byte) (m : Memory) :
    Memory.wfFrom lo ((b, w) :: m) = true ↔
      lo ≤ b ∧ b < 256 ∧ w ≠ 0#8 ∧ Memory.wfFrom (b + 1) m = true := by
  simp [Memory.wfFrom, and_assoc]

theorem Memory.wfFrom_le {lo lo' : Nat} {m : Memory} (hle : lo' ≤ lo) (h : Memory.wfFrom lo m = true) :
    Memory.wfFrom lo' m = true := by
  cases m with
  | nil => rfl
  | cons c m =>
    obtain ⟨b, w⟩ := c
    rw [Memory.wfFrom_cons] at *
    exact ⟨by omega, h.2⟩

theorem Memory.wfFrom_erase {lo : Nat} {m : Memory} (a : Nat) (h : Memory.wfFrom lo m = true) :
    Memory.wfFrom lo (Memory.erase m a) = true := by
  induction m generalizing lo with
  | nil => rfl
  | cons c m ih =>
    obtain ⟨b, w⟩ := c
    rw [Memory.wfFrom_cons] at h
    rw [Memory.erase_cons]
    split
    · exact Memory.wfFrom_le (by omega) (ih h.2.2.2)
    · exact (Memory.wfFrom_cons ..).2 ⟨h.1, h.2.1, h.2.2.1, ih h.2.2.2⟩

theorem Memory.wfFrom_insert {lo a : Nat} {v : Byte} {m : Memory} (hlo : lo ≤ a) (ha : a < 256)
    (hv : v ≠ 0#8) (h : Memory.wfFrom lo m = true) :
    Memory.wfFrom lo (Memory.insert a v (Memory.erase m a)) = true := by
  induction m generalizing lo with
  | nil => exact (Memory.wfFrom_cons ..).2 ⟨hlo, ha, hv, rfl⟩
  | cons c m ih =>
    obtain ⟨b, w⟩ := c
    rw [Memory.wfFrom_cons] at h
    rw [Memory.erase_cons]
    split
    · exact ih hlo (Memory.wfFrom_le (by omega) h.2.2.2)
    · next hne =>
      unfold Memory.insert
      split
      · exact (Memory.wfFrom_cons ..).2 ⟨hlo, ha, hv,
          (Memory.wfFrom_cons ..).2 ⟨by omega, h.2.1, h.2.2.1, Memory.wfFrom_erase a h.2.2.2⟩⟩
      · exact (Memory.wfFrom_cons ..).2 ⟨h.1, h.2.1, h.2.2.1, ih (by omega) h.2.2.2⟩

/-- Every write inside the address space keeps the canonical form. -/
theorem Memory.wf_write {m : Memory} {a : Nat} (v : Byte) (ha : a < 256) (h : Memory.wf m = true) :
    Memory.wf (Memory.write m a v) = true := by
  unfold Memory.write
  split
  · exact Memory.wfFrom_erase a h
  · next hv => exact Memory.wfFrom_insert (Nat.zero_le a) ha hv h

/-- A canonical list from `lo` lists nothing below `lo`. -/
theorem Memory.read_below {lo : Nat} {m : Memory} (h : Memory.wfFrom lo m = true) {x : Nat} (hx : x < lo) :
    Memory.read m x = 0#8 := by
  induction m generalizing lo with
  | nil => rfl
  | cons c m ih =>
    obtain ⟨b, w⟩ := c
    rw [Memory.wfFrom_cons] at h
    rw [Memory.read_cons, if_neg (by omega)]
    exact ih h.2.2.2 (by omega)

theorem Memory.wf_nil : Memory.wf [] = true := rfl

end Sys2Proof.Machine
end

