-- ==== Sys2Proof/Laws/State.lean ====
section
/-! SUPPORT. One lemma per field per update of State, and the reads of a register after a register write. -/

namespace Sys2Proof.Machine

variable (s : State) (i j : RegIdx) (v : Byte) (n : Nat) (k : FaultKind)

@[simp] theorem State.setReg_mem : (s.setReg i v).mem = s.mem := rfl
@[simp] theorem State.setReg_pc : (s.setReg i v).pc = s.pc := rfl
@[simp] theorem State.setReg_run : (s.setReg i v).run = s.run := rfl
@[simp] theorem State.setReg_out : (s.setReg i v).out = s.out := rfl

@[simp] theorem State.setMem_mem (m : Memory) : (s.setMem m).mem = m := rfl
@[simp] theorem State.setMem_regs (m : Memory) : (s.setMem m).regs = s.regs := rfl
@[simp] theorem State.setMem_pc (m : Memory) : (s.setMem m).pc = s.pc := rfl
@[simp] theorem State.setMem_run (m : Memory) : (s.setMem m).run = s.run := rfl
@[simp] theorem State.setMem_out (m : Memory) : (s.setMem m).out = s.out := rfl
@[simp] theorem State.setMem_reg (m : Memory) : (s.setMem m).reg i = s.reg i := rfl

@[simp] theorem State.setPc_mem : (s.setPc n).mem = s.mem := rfl
@[simp] theorem State.setPc_regs : (s.setPc n).regs = s.regs := rfl
@[simp] theorem State.setPc_pc : (s.setPc n).pc = n := rfl
@[simp] theorem State.setPc_run : (s.setPc n).run = s.run := rfl
@[simp] theorem State.setPc_out : (s.setPc n).out = s.out := rfl
@[simp] theorem State.setPc_reg : (s.setPc n).reg i = s.reg i := rfl

@[simp] theorem State.advance_mem : (s.advance n).mem = s.mem := rfl
@[simp] theorem State.advance_regs : (s.advance n).regs = s.regs := rfl
@[simp] theorem State.advance_pc : (s.advance n).pc = s.pc + n := rfl
@[simp] theorem State.advance_run : (s.advance n).run = s.run := rfl
@[simp] theorem State.advance_out : (s.advance n).out = s.out := rfl
@[simp] theorem State.advance_reg : (s.advance n).reg i = s.reg i := rfl

@[simp] theorem State.halt_mem : s.halt.mem = s.mem := rfl
@[simp] theorem State.halt_regs : s.halt.regs = s.regs := rfl
@[simp] theorem State.halt_pc : s.halt.pc = s.pc := rfl
@[simp] theorem State.halt_run : s.halt.run = .halted := rfl
@[simp] theorem State.halt_out : s.halt.out = s.out := rfl
@[simp] theorem State.halt_reg : s.halt.reg i = s.reg i := rfl

@[simp] theorem State.output_mem : (s.output v).mem = s.mem := rfl
@[simp] theorem State.output_regs : (s.output v).regs = s.regs := rfl
@[simp] theorem State.output_pc : (s.output v).pc = s.pc := rfl
@[simp] theorem State.output_run : (s.output v).run = s.run := rfl
@[simp] theorem State.output_out : (s.output v).out = s.out ++ [v] := rfl
@[simp] theorem State.output_reg : (s.output v).reg i = s.reg i := rfl

@[simp] theorem State.takeFault_mem : (s.takeFault k).mem = s.mem := rfl
@[simp] theorem State.takeFault_regs : (s.takeFault k).regs = s.regs := rfl
@[simp] theorem State.takeFault_pc : (s.takeFault k).pc = s.pc := rfl
@[simp] theorem State.takeFault_run : (s.takeFault k).run = .faulted ⟨k, s.pc⟩ := rfl
@[simp] theorem State.takeFault_out : (s.takeFault k).out = s.out := rfl
@[simp] theorem State.takeFault_reg : (s.takeFault k).reg i = s.reg i := rfl

@[simp] theorem State.decSp_mem : s.decSp.mem = s.mem := rfl
@[simp] theorem State.decSp_pc : s.decSp.pc = s.pc := rfl
@[simp] theorem State.decSp_run : s.decSp.run = s.run := rfl
@[simp] theorem State.decSp_out : s.decSp.out = s.out := rfl

@[simp] theorem State.incSp_mem : s.incSp.mem = s.mem := rfl
@[simp] theorem State.incSp_pc : s.incSp.pc = s.pc := rfl
@[simp] theorem State.incSp_run : s.incSp.run = s.run := rfl
@[simp] theorem State.incSp_out : s.incSp.out = s.out := rfl

/-- A register read after a register write. -/
theorem State.reg_setReg : (s.setReg i v).reg j = if i = j then v else s.reg j := by
  simp [State.reg, State.setReg, Vector.get_eq_getElem, Vector.getElem_set, Fin.ext_iff]

@[simp] theorem State.reg_setReg_same : (s.setReg i v).reg i = v := by simp [State.reg_setReg]

theorem State.reg_setReg_other (h : j ≠ i) : (s.setReg i v).reg j = s.reg j := by
  simp [State.reg_setReg, Ne.symm h]

@[simp] theorem State.sp_eq : s.sp = s.reg 7 := rfl

theorem State.reg_decSp : s.decSp.reg j = if j = 7 then s.pushAddr else s.reg j := by
  simp [State.decSp, State.reg_setReg, eq_comm]

@[simp] theorem State.reg_decSp_sp : s.decSp.reg 7 = s.pushAddr := by simp [State.reg_decSp]

theorem State.reg_incSp : s.incSp.reg j = if j = 7 then trunc8 ((s.sp.toNat : Int) + 1) else s.reg j := by
  simp [State.incSp, State.reg_setReg, eq_comm]

/-- Two states with the same registers read by number are equal register files. -/
theorem State.regs_ext (t : State) (h : ∀ r, s.reg r = t.reg r) : s.regs = t.regs := by
  apply Vector.ext
  intro i hi
  exact h ⟨i, hi⟩

end Sys2Proof.Machine
end

