-- ==== Sys2Proof/Laws/Ops.lean ====
section
/-! SUPPORT. What each shared operation can do, said once: the reduction modulo 256, the register-index check, the
memory interface, the stack primitives, the end of a step, the fetch, the decoder. -/

namespace Sys2Proof.Machine

/-! ## Reduction modulo 256 -/

theorem trunc8_toNat (n : Nat) : (trunc8 (n : Int)).toNat = n % 256 := by
  simp only [trunc8, BitVec.toNat_ofInt]
  omega

theorem trunc8_add (p q : Byte) : trunc8 ((p.toNat : Int) + q.toNat) = p + q := by
  apply BitVec.eq_of_toNat_eq
  simp only [trunc8, BitVec.toNat_ofInt, BitVec.toNat_add]
  omega

theorem trunc8_sub (p q : Byte) : trunc8 ((p.toNat : Int) - q.toNat) = p - q := by
  apply BitVec.eq_of_toNat_eq
  simp only [trunc8, BitVec.toNat_ofInt, BitVec.toNat_sub]
  omega

theorem trunc8_mul (p q : Byte) : trunc8 ((p.toNat : Int) * q.toNat) = p * q := by
  apply BitVec.eq_of_toNat_eq
  have h : ((p.toNat : Int) * q.toNat) = ((p.toNat * q.toNat : Nat) : Int) := by push_cast; rfl
  rw [h, trunc8_toNat, BitVec.toNat_mul]

theorem State.pushAddr_eq (s : State) : s.pushAddr = s.reg 7 - 1#8 := trunc8_sub (s.reg 7) 1#8

theorem trunc8_succ (p : Byte) : trunc8 ((p.toNat : Int) + 1) = p + 1#8 := trunc8_add p 1#8

/-! ## The register-index check -/

theorem regIndex_ok {a : Byte} {r : RegIdx} (h : a.toNat = r.val) : regIndex a = .ok r := by
  simp [regIndex, h, r.isLt]

theorem regIndex_error {a : Byte} (h : 8 ≤ a.toNat) : regIndex a = .error (.registerIndexFault a) := by
  simp [regIndex, Nat.not_lt.2 h]

/-- The check answers the register the byte names, or the fault. -/
theorem regIndex_cases (a : Byte) :
    (∃ r : RegIdx, a.toNat = r.val ∧ regIndex a = .ok r) ∨
      (8 ≤ a.toNat ∧ regIndex a = .error (.registerIndexFault a)) := by
  by_cases h : a.toNat < 8
  · exact .inl ⟨⟨a.toNat, h⟩, rfl, regIndex_ok rfl⟩
  · exact .inr ⟨by omega, regIndex_error (by omega)⟩

/-! ## The end of a step -/

@[simp] theorem conclude_ok (s t : State) : conclude s (.ok t) = .next t := rfl
@[simp] theorem conclude_error (s : State) (k : FaultKind) : conclude s (.error k) = .next (s.takeFault k) := rfl

@[simp] theorem except_ok_bind {α β : Type} (x : α) (f : α → Except FaultKind β) :
    (Except.ok x >>= f) = f x := rfl
@[simp] theorem except_error_bind {α β : Type} (k : FaultKind) (f : α → Except FaultKind β) :
    ((Except.error k : Except FaultKind α) >>= f) = .error k := rfl
@[simp] theorem except_pure {α : Type} (x : α) : (pure x : Except FaultKind α) = .ok x := rfl

/-! ## The memory interface and the stack -/

theorem State.memRead_ok (s : State) {x : Nat} (h : x < 256) : s.memRead x = .ok (Memory.read s.mem x) := by
  simp [State.memRead, h]

theorem State.memRead_error (s : State) {x : Nat} (h : 256 ≤ x) : s.memRead x = .error (.memoryRangeFault x) := by
  simp [State.memRead, Nat.not_lt.2 h]

/-- A register byte is always an address: a data read cannot fail (20_memory.md R53). -/
@[simp] theorem State.memRead_byte (s : State) (v : Byte) :
    s.memRead v.toNat = .ok (Memory.read s.mem v.toNat) := s.memRead_ok v.isLt

/-- A register byte is always an address: a data write cannot fail (20_memory.md R53). -/
@[simp] theorem State.memWrite_byte (s : State) (x v : Byte) :
    s.memWrite x.toNat v = .ok (s.setMem (Memory.write s.mem x.toNat v)) := by
  have h : x.toNat < 256 := x.isLt
  simp [State.memWrite, h]

/-- A push never fails: SP goes down by one and the cell there is written. -/
@[simp] theorem State.pushByte_eq (s : State) (v : Byte) :
    s.pushByte v = .ok (s.decSp.setMem (Memory.write s.mem s.pushAddr.toNat v)) := by
  simp [State.pushByte]

/-- A pop never fails: the cell at SP is read and SP goes up by one. -/
@[simp] theorem State.popByte_eq (s : State) :
    s.popByte = .ok (Memory.read s.mem (s.reg 7).toNat, s.incSp) := by
  simp [State.popByte]

/-! ## Fetch and decode -/

theorem State.fetch_ok (s : State) (h : s.pc ≤ 253) :
    s.fetch = .ok (Memory.read s.mem s.pc, Memory.read s.mem (s.pc + 1), Memory.read s.mem (s.pc + 2)) := by
  rw [State.fetch, s.memRead_ok (by omega), s.memRead_ok (by omega), s.memRead_ok (by omega)]
  rfl

/-- From pc = 254 on a fetch fails at the first address that does not exist (40_fetch_execute.md R111). -/
theorem State.fetch_error (s : State) (h : 254 ≤ s.pc) :
    s.fetch = .error (.memoryRangeFault (if s.pc ≤ 256 then 256 else s.pc)) := by
  unfold State.fetch
  by_cases h0 : 256 ≤ s.pc
  · rw [s.memRead_error h0]
    by_cases h1 : s.pc ≤ 256
    · have : s.pc = 256 := by omega
      simp [this]
    · simp [h1]
  · rw [s.memRead_ok (by omega), except_ok_bind]
    by_cases h1 : s.pc = 255
    · rw [s.memRead_error (by omega)]; simp [h1]
    · have h2 : s.pc = 254 := by omega
      rw [s.memRead_ok (by omega), except_ok_bind, s.memRead_error (by omega)]; simp [h2]

/-- What the decoder accepts: the opcode is the instruction's, and its operands are the bytes after it. -/
theorem decode_ok_iff (op a b : Byte) (i : Instr) :
    decode op a b = .ok i ↔
      (op = 0x01#8 ∧ i = .hlt) ∨ (op = 0x82#8 ∧ i = .ldi a b) ∨ (op = 0x47#8 ∧ i = .prn a) ∨
      (op = 0xA0#8 ∧ i = .add a b) ∨ (op = 0xA2#8 ∧ i = .mul a b) ∨ (op = 0x45#8 ∧ i = .push a) ∨
      (op = 0x46#8 ∧ i = .pop a) ∨ (op = 0x50#8 ∧ i = .call a) ∨ (op = 0x11#8 ∧ i = .ret) := by
  unfold decode
  split <;> simp_all [eq_comm]

theorem lookupInstr_ok {op a b : Byte} {i : Instr} (h : decode op a b = .ok i) : lookupInstr op a b = .ok i := by
  simp [lookupInstr, h]

theorem lookupInstr_error {op a b : Byte} {e : DecodeError} (h : decode op a b = .error e) :
    lookupInstr op a b = .error (decodeFault e) := by
  simp [lookupInstr, h]

theorem State.fetchInstr_ok (s : State) (h : s.pc ≤ 253) :
    s.fetchInstr = lookupInstr (Memory.read s.mem s.pc) (Memory.read s.mem (s.pc + 1))
      (Memory.read s.mem (s.pc + 2)) := by
  simp only [State.fetchInstr, s.fetch_ok h]

theorem State.fetchInstr_error (s : State) (h : 254 ≤ s.pc) :
    s.fetchInstr = .error (.memoryRangeFault (if s.pc ≤ 256 then 256 else s.pc)) := by
  rw [State.fetchInstr, s.fetch_error h]

end Sys2Proof.Machine
end

