-- ==== Sys2Proof/Laws/Exec.lean ====
section
/-! SUPPORT. The next state of each instruction whose register operands name registers, over the shared operations, so
that a proof about an instruction need not unfold its meaning. -/

namespace Sys2Proof.Machine

theorem exec_hlt (s : State) : exec .hlt s = .next (s.halt.advance 1) := rfl

theorem exec_ldi {a b : Byte} {r : RegIdx} (s : State) (h : a.toNat = r.val) :
    exec (.ldi a b) s = .next ((s.setReg r b).advance 3) := by
  simp [exec, execLdi, regIndex_ok h, immediate]

theorem exec_prn {a : Byte} {r : RegIdx} (s : State) (h : a.toNat = r.val) :
    exec (.prn a) s = .next ((s.output (s.reg r)).advance 2) := by
  simp [exec, execPrn, regIndex_ok h]

theorem alu_add (ra rb : RegIdx) (s : State) : alu .add ra rb s = .ok (s.setReg ra (s.reg ra + s.reg rb)) := by
  simp [alu, aluResult, trunc8_add]

theorem alu_sub (ra rb : RegIdx) (s : State) : alu .sub ra rb s = .ok (s.setReg ra (s.reg ra - s.reg rb)) := by
  simp [alu, aluResult, trunc8_sub]

theorem alu_mul (ra rb : RegIdx) (s : State) : alu .mul ra rb s = .ok (s.setReg ra (s.reg ra * s.reg rb)) := by
  simp [alu, aluResult, trunc8_mul]

theorem exec_add {a b : Byte} {ra rb : RegIdx} (s : State) (ha : a.toNat = ra.val) (hb : b.toNat = rb.val) :
    exec (.add a b) s = .next ((s.setReg ra (s.reg ra + s.reg rb)).advance 3) := by
  simp [exec, execAdd, regIndex_ok ha, regIndex_ok hb, alu_add]

theorem exec_mul {a b : Byte} {ra rb : RegIdx} (s : State) (ha : a.toNat = ra.val) (hb : b.toNat = rb.val) :
    exec (.mul a b) s = .next ((s.setReg ra (s.reg ra * s.reg rb)).advance 3) := by
  simp [exec, execMul, regIndex_ok ha, regIndex_ok hb, alu_mul]

theorem exec_push {a : Byte} {r : RegIdx} (s : State) (h : a.toNat = r.val) :
    exec (.push a) s =
      .next ((s.decSp.setMem (Memory.write s.mem s.pushAddr.toNat (s.decSp.reg r))).advance 2) := by
  simp [exec, execPush, regIndex_ok h]

theorem exec_pop {a : Byte} {r : RegIdx} (s : State) (h : a.toNat = r.val) :
    exec (.pop a) s = .next ((s.setReg r (Memory.read s.mem (s.reg 7).toNat)).incSp.advance 2) := by
  simp [exec, execPop, regIndex_ok h]

theorem exec_call {a : Byte} {r : RegIdx} (s : State) (h : a.toNat = r.val) :
    exec (.call a) s =
      .next ((s.decSp.setMem (Memory.write s.mem s.pushAddr.toNat s.returnAddr)).setPc (s.decSp.reg r).toNat) := by
  simp [exec, execCall, regIndex_ok h]

theorem exec_ret (s : State) :
    exec .ret s = .next (s.incSp.setPc (Memory.read s.mem (s.reg 7).toNat).toNat) := by
  simp [exec, execRet]

/-- The return address is exact wherever a CALL can execute (45_subroutine.md R181). -/
theorem State.returnAddr_toNat (s : State) (h : s.pc ≤ 253) : s.returnAddr.toNat = s.pc + 2 := by
  have e := trunc8_toNat (s.pc + 2)
  unfold State.returnAddr
  push_cast at e
  rw [e]
  omega

end Sys2Proof.Machine
end

