-- ==== Sys2Proof/Laws/Loader.lean ====
section
/-! SUPPORT. Every operation that writes Memory keeps its canonical form, and what storing an image leaves in a cell. -/

namespace Sys2Proof.Machine

theorem State.reset_mem_wf : Memory.wf State.reset.mem = true := rfl

theorem State.memWrite_wf {s t : State} {a : Nat} {v : Byte} (h : s.memWrite a v = .ok t)
    (hw : Memory.wf s.mem = true) : Memory.wf t.mem = true := by
  unfold State.memWrite at h
  split at h
  · next ha => cases h; exact Memory.wf_write v ha hw
  · cases h

theorem State.pushByte_wf {s t : State} {v : Byte} (h : s.pushByte v = .ok t) (hw : Memory.wf s.mem = true) :
    Memory.wf t.mem = true := State.memWrite_wf (s := s.decSp) h hw

theorem State.storeTableWord_wf (s : State) (nbits w : Nat) (hw : Memory.wf s.mem = true) :
    Memory.wf (s.storeTableWord nbits w).mem = true := by
  have put (m : Memory) (k : Nat) (hm : Memory.wf m = true) :
      Memory.wf (if s.pc + k < Config.memSize then Memory.write m (s.pc + k) (tableByte nbits w k) else m) = true := by
    split
    · next h => exact Memory.wf_write _ h hm
    · exact hm
  exact put _ 2 (put _ 1 (put _ 0 hw))

theorem State.withFetchWord_wf (s : State) (nbits w : Nat) (hw : Memory.wf s.mem = true) :
    Memory.wf (s.withFetchWord nbits w).mem = true := s.storeTableWord_wf nbits w hw

theorem storeImage_wf (image : List Byte) (addr : Nat) (m : Memory) (h : addr + image.length ≤ 256)
    (hm : Memory.wf m = true) : Memory.wf (storeImage image addr m) = true := by
  induction image generalizing addr m with
  | nil => exact hm
  | cons v image ih =>
    rw [List.length_cons] at h
    exact ih _ _ (by omega) (Memory.wf_write v (by omega) hm)

theorem loadLines_wf {lines : List (List Char)} {addr : Nat} {m m' : Memory} (h : loadLines lines addr m = .ok m')
    (hm : Memory.wf m = true) : Memory.wf m' = true := by
  induction lines generalizing addr m with
  | nil => cases h; exact hm
  | cons l lines ih =>
    unfold loadLines at h
    split at h
    · exact ih h hm
    · split at h
      · cases h
      · split at h
        · cases h
        · next ha => exact ih h (Memory.wf_write _ (Nat.lt_of_not_le ha) hm)

/-- What a cell holds after an image is stored from `addr` on. -/
theorem storeImage_read (image : List Byte) (addr : Nat) (m : Memory) (x : Nat) :
    Memory.read (storeImage image addr m) x =
      if h : addr ≤ x ∧ x < addr + image.length then image[x - addr]'(by omega) else Memory.read m x := by
  induction image generalizing addr m with
  | nil => simp [storeImage]
  | cons v image ih =>
    rw [storeImage, ih, Memory.read_write]
    by_cases hx : x = addr
    · subst hx; simp
    · simp only [List.length_cons, hx, if_false]
      by_cases h1 : addr + 1 ≤ x ∧ x < addr + 1 + image.length
      · have h2 : addr ≤ x ∧ x < addr + (image.length + 1) := by omega
        have h3 : x - addr = (x - (addr + 1)) + 1 := by omega
        rw [dif_pos h1, dif_pos h2]
        simp [h3]
      · have h2 : ¬ (addr ≤ x ∧ x < addr + (image.length + 1)) := by omega
        rw [dif_neg h1, dif_neg h2]

end Sys2Proof.Machine
end

