-- ==== Sys2Proof/Laws/PerInstr.lean ====
section
/-! SUPPORT. Facts about every instruction as syntax, one lemma per constructor. -/

namespace Sys2Proof.Laws.OpcodeShape

/-- What the opcode bits show (30_encoding.md R87): bits 7:6 are the operand count, bit 5 is 1 exactly for ADD and MUL,
bit 4 exactly for CALL and RET. -/
def Statement (i : Instr) : Prop :=
  (i.opcode.extractLsb' 6 2).toNat = i.operandBytes.length ∧
    (i.opcode.getLsbD 5 = true ↔ i.mnemonic = "ADD" ∨ i.mnemonic = "MUL") ∧
    (i.opcode.getLsbD 4 = true ↔ i.mnemonic = "CALL" ∨ i.mnemonic = "RET")

theorem hlt : Statement .hlt := by simp [Statement, Instr.opcode, Instr.operandBytes, Instr.mnemonic]
theorem ldi (a b : Byte) : Statement (.ldi a b) := by simp [Statement, Instr.opcode, Instr.operandBytes, Instr.mnemonic]
theorem prn (a : Byte) : Statement (.prn a) := by simp [Statement, Instr.opcode, Instr.operandBytes, Instr.mnemonic]
theorem add (a b : Byte) : Statement (.add a b) := by simp [Statement, Instr.opcode, Instr.operandBytes, Instr.mnemonic]
theorem mul (a b : Byte) : Statement (.mul a b) := by simp [Statement, Instr.opcode, Instr.operandBytes, Instr.mnemonic]
theorem push (a : Byte) : Statement (.push a) := by simp [Statement, Instr.opcode, Instr.operandBytes, Instr.mnemonic]
theorem pop (a : Byte) : Statement (.pop a) := by simp [Statement, Instr.opcode, Instr.operandBytes, Instr.mnemonic]
theorem call (a : Byte) : Statement (.call a) := by simp [Statement, Instr.opcode, Instr.operandBytes, Instr.mnemonic]
theorem ret : Statement .ret := by simp [Statement, Instr.opcode, Instr.operandBytes, Instr.mnemonic]

end Sys2Proof.Laws.OpcodeShape
end

