-- ==== Sys2Proof/Tests/Slice0.lean ====
section
/-! SUPPORT. The model's own tests. Expected results are taken from spec/95_test_vectors.md (the vector's id stands at
each test) or written out from 30_encoding.md R86; and one witness, or more, for the hypotheses of each statement. -/

namespace Sys2Proof.Tests

open Sys2Proof Sys2Proof.Machine

/-- A running core with `bytes` in Memory from `pc` on and the listed registers set, all else as at launch. -/
def core (pc : Nat) (bytes : List Byte) (regs : List (RegIdx × Byte)) : State :=
  regs.foldl (fun s r => s.setReg r.1 r.2) { State.reset with mem := storeImage bytes pc [], pc := pc }

/-- The state after one step. -/
def after (s : State) : State :=
  match step s with
  | .next t => t
  | _ => s

/-! ## WellFormed refuses an ill-formed term for each check -/

theorem test_wf_ldi_register : (Instr.ldi 8#8 0#8).wf = false := by decide
theorem test_wf_ldi_any_immediate : (Instr.ldi 7#8 255#8).wf = true := by decide
theorem test_wf_prn_register : (Instr.prn 8#8).wf = false := by decide
theorem test_wf_add_first_register : (Instr.add 8#8 0#8).wf = false := by decide
theorem test_wf_add_second_register : (Instr.add 7#8 8#8).wf = false := by decide
theorem test_wf_mul_first_register : (Instr.mul 255#8 0#8).wf = false := by decide
theorem test_wf_mul_second_register : (Instr.mul 0#8 255#8).wf = false := by decide
theorem test_wf_push_register : (Instr.push 8#8).wf = false := by decide
theorem test_wf_pop_register : (Instr.pop 12#8).wf = false := by decide
theorem test_wf_call_register : (Instr.call 8#8).wf = false := by decide

/-! ## Decoding, each opcode written out bit by bit from 30_encoding.md R86 -/

theorem test_decode_hlt : decode 0b00000001#8 0xFF#8 0xFF#8 = .ok .hlt := by decide
theorem test_decode_ldi : decode 0b10000010#8 0b00000000#8 0b00001000#8 = .ok (.ldi 0#8 8#8) := by decide
theorem test_decode_prn : decode 0b01000111#8 0b00000011#8 0xFF#8 = .ok (.prn 3#8) := by decide
theorem test_decode_add : decode 0b10100000#8 0b00000101#8 0b00000110#8 = .ok (.add 5#8 6#8) := by decide
theorem test_decode_mul : decode 0b10100010#8 0b00000000#8 0b00000001#8 = .ok (.mul 0#8 1#8) := by decide
theorem test_decode_push : decode 0b01000101#8 0b00000111#8 0x00#8 = .ok (.push 7#8) := by decide
theorem test_decode_pop : decode 0b01000110#8 0b00000010#8 0x00#8 = .ok (.pop 2#8) := by decide
theorem test_decode_call : decode 0b01010000#8 0b00000011#8 0x00#8 = .ok (.call 3#8) := by decide
theorem test_decode_ret : decode 0b00010001#8 0x09#8 0x09#8 = .ok .ret := by decide
/-- V-F-5: 0xA1 is not SUB in this core. -/
theorem test_decode_rejects_a1 : decode 0xA1#8 0#8 0#8 = .error (.unknownOpcode 0xA1#8) := by decide
theorem test_table_word_ldi : decodeTableWord 24 0x080082 = some (.ldi 0#8 8#8) := by decide
theorem test_table_word_short : decodeTableWord 8 0x080082 = some (.ldi 0#8 0#8) := by decide
theorem test_table_word_unknown : decodeTableWord 8 0xFF = none := by decide
theorem test_fetch_word_runs : step (State.reset.withFetchWord 24 0x080082) =
    exec (.ldi 0#8 8#8) (State.reset.withFetchWord 24 0x080082) := by rfl
/-- 30_encoding.md R93: the bytes of `LDI R0,8`. -/
theorem test_encode_ldi : encode (.ldi 0#8 8#8) = [0b10000010#8, 0b00000000#8, 0b00001000#8] := by decide
/-- 30_encoding.md R91. -/
theorem test_text_mul : (Instr.mul 0#8 1#8).text = "MUL R0,R1" := by decide

/-! ## One step of each instruction (spec/95_test_vectors.md section 2) -/

/-- V-F-1. -/
theorem test_hlt_at_253 : (after (core 253 [0x01#8] [])).run = .halted ∧ (after (core 253 [0x01#8] [])).pc = 254 := by
  decide
/-- V-F-2. -/
theorem test_hlt_at_254 : (after (core 254 [0x01#8] [])).run = .faulted ⟨.memoryRangeFault 256, 254⟩ := by decide
/-- V-F-4: pc reaches 256. -/
theorem test_ldi_at_253 : (after (core 253 [0x82#8, 0x00#8, 0x05#8] [])).reg 0 = 5#8 ∧
    (after (core 253 [0x82#8, 0x00#8, 0x05#8] [])).pc = 256 := by decide
/-- V-L-4. -/
theorem test_ldi_register_8 :
    (after (core 0 [0x82#8, 0x08#8, 0x05#8] [])).run = .faulted ⟨.registerIndexFault 8#8, 0⟩ := by decide
/-- V-P-2. -/
theorem test_prn_sp : (after (core 0 [0x47#8, 0x07#8] [])).out = [255#8] := by decide
/-- V-P-3. -/
theorem test_prn_register_8 : (after (core 0 [0x47#8, 0x08#8] [])).out = [] := by decide
/-- V-A-1. -/
theorem test_add_wraps : (after (core 0 [0xA0#8, 0x00#8, 0x01#8] [(0, 200#8), (1, 100#8)])).reg 0 = 44#8 := by decide
/-- V-A-6: a is checked before b. -/
theorem test_add_checks_a_first :
    (after (core 0 [0xA0#8, 0x09#8, 0x08#8] [])).run = .faulted ⟨.registerIndexFault 9#8, 0⟩ := by decide
/-- V-M-3. -/
theorem test_mul_wraps : (after (core 0 [0xA2#8, 0x00#8, 0x01#8] [(0, 255#8), (1, 255#8)])).reg 0 = 1#8 := by decide
/-- V-M-6. -/
theorem test_mul_by_sp : (after (core 0 [0xA2#8, 0x00#8, 0x07#8] [(0, 3#8)])).reg 0 = 253#8 := by decide
/-- V-S-2. -/
theorem test_push_wraps : (after (core 0 [0x45#8, 0x00#8] [(0, 77#8), (7, 0#8)])).reg 7 = 255#8 ∧
    Memory.read (after (core 0 [0x45#8, 0x00#8] [(0, 77#8), (7, 0#8)])).mem 255 = 77#8 := by decide
/-- V-S-3. -/
theorem test_push_sp : Memory.read (after (core 0 [0x45#8, 0x07#8] [(7, 100#8)])).mem 99 = 99#8 := by decide
/-- V-POP-2, on an image that reaches cell 255. -/
theorem test_pop_wraps : (after { core 0 [0x46#8, 0x00#8] [] with
    mem := Memory.write (core 0 [0x46#8, 0x00#8] []).mem 255 42#8 }).regs =
      #v[42#8, 0#8, 0#8, 0#8, 0#8, 0#8, 0#8, 0#8] := by decide
/-- V-POP-3. -/
theorem test_pop_sp : (after { core 0 [0x46#8, 0x07#8] [(7, 99#8)] with
    mem := Memory.write (core 0 [0x46#8, 0x07#8] []).mem 99 99#8 }).reg 7 = 100#8 := by decide
/-- V-C-2. -/
theorem test_call_sp : (after (core 10 [0x50#8, 0x07#8] [(7, 200#8)])).pc = 199 ∧
    Memory.read (after (core 10 [0x50#8, 0x07#8] [(7, 200#8)])).mem 199 = 12#8 := by decide
/-- V-C-3: the push lands on the CALL's own operand byte. -/
theorem test_call_at_253 : (after (core 253 [0x50#8, 0x01#8] [(1, 30#8)])).pc = 30 ∧
    Memory.read (after (core 253 [0x50#8, 0x01#8] [(1, 30#8)])).mem 254 = 255#8 := by decide
/-- V-R-1. -/
theorem test_ret : (after { core 23 [0x11#8] [(7, 254#8)] with mem := [(23, 0x11#8), (254, 5#8)] }).pc = 5 ∧
    (after { core 23 [0x11#8] [(7, 254#8)] with mem := [(23, 0x11#8), (254, 5#8)] }).reg 7 = 255#8 := by decide
/-- V-R-4: ignored bytes are not register-checked. -/
theorem test_ret_ignores_bytes : (after (core 0 [0x11#8, 0x09#8, 0x09#8] [])).run = .running ∧
    (after (core 0 [0x11#8, 0x09#8, 0x09#8] [])).reg 7 = 0#8 := by decide
/-- W8: the first step from reset with no program. -/
theorem test_reset_step : step State.reset = .next { State.reset with run := .faulted ⟨.unknownOpcode 0#8, 0⟩ } := by rfl
/-- V-F-7: the decode fault comes before the register check. -/
theorem test_unknown_before_register :
    (after (core 0 [0xFF#8, 0x09#8, 0x09#8] [])).run = .faulted ⟨.unknownOpcode 0xFF#8, 0⟩ := by decide
/-- V-F-8: the range check comes before the decoding. -/
theorem test_range_before_unknown : (after (core 255 [] [])).run = .faulted ⟨.memoryRangeFault 256, 255⟩ := by decide
/-- The outcome of a step of an ended core (log 2). -/
theorem test_no_step_in_halted : step (State.reset.halt) = .fault .coreHalted := by rfl

/-! ## ALU by direct invocation, loader, process entry -/

/-- V-U-1. -/
theorem test_alu_sub : (aluApply "SUB" 0#8 1#8 (core 0 [] [(0, 3#8), (1, 5#8)])).map (fun t => t.reg 0) = .ok 254#8 := by
  decide
/-- V-U-2. -/
theorem test_alu_div : (aluApply "DIV" 0#8 1#8 (core 0 [] [(0, 7#8), (1, 2#8)])).map (fun t => t.reg 0) = .ok 3#8 := by
  decide
/-- V-U-3. -/
theorem test_alu_div_zero : aluApply "DIV" 0#8 1#8 (core 0 [] [(0, 7#8)]) = .error .aluDivideByZero := by decide
/-- V-U-4. -/
theorem test_alu_and : aluApply "AND" 0#8 1#8 State.reset = .error (.aluUnsupportedOperation "AND") := by decide
/-- V-LD-1. -/
theorem test_load_file : loadLines ["10000010 # LDI".toList, [], "# comment only".toList, "00000000".toList,
    "00001000".toList] 0 [] = .ok (storeImage [0x82#8, 0x00#8, 0x08#8] 0 []) := by decide
/-- V-LD-2. -/
theorem test_load_seven_digits : loadLines ["1000001".toList] 0 [] = .error .malformedToken := by decide
/-- V-LD-4 and V-LD-5, with a text split into its lines. -/
theorem test_entry : processEntry ["p"] (fun _ => some []) = .ok State.reset ∧
    processEntry [] (fun _ => some []) = .error .usageError ∧
    processEntry ["p"] (fun _ => some "00000001\n# end\n".toList) = .ok (launch [0x01#8]) := by decide
/-- 60_exceptions.md R216: two-digit uppercase hexadecimal. -/
theorem test_hex2 : hex2 175 = ['A', 'F'] := by decide
/-- 70_reset_and_hazards.md R239: one decimal line per output byte. -/
theorem test_output_lines : (after (core 0 [0x47#8, 0x07#8] [])).outputLines = ["255"] := by decide

/-! ## Witnesses: a concrete state and operands that meet the hypotheses of each statement, clause by clause -/

theorem witness_LaunchStateHoldsImage : (List.replicate 256 1#8 : List Byte).length ≤ 256 ∧
    255 < (List.replicate 256 1#8 : List Byte).length ∧ (([1#8] : List Byte).length ≤ 255 ∧ 255 < 256) ∧
    (6 : RegIdx) ≠ 7 :=
  ⟨List.length_replicate.le, List.length_replicate ▸ by decide, by decide, by decide⟩
theorem witness_LoaderBuildsLaunchMemory :
    fileTokens [" 00001000 # eight".toList, "#".toList] = [8#8].map byteText ∧ ([8#8] : List Byte).length ≤ 256 := by
  decide
theorem witness_LoaderRejectsBadFiles_token :
    ∃ t ∈ fileTokens ["1000001".toList], ∀ v : Byte, t ≠ byteText v := ⟨"1000001".toList, by decide, by decide⟩
theorem witness_LoaderRejectsBadFiles_length :
    256 < (fileTokens (List.replicate 257 ['0'])).length := by
  have h : decide (strip (beforeComment ['0']) ≠ []) = true := by decide
  rw [fileTokens, List.map_replicate, List.filter_replicate_of_pos (p := fun t => decide (t ≠ [])) h, List.length_replicate]
  decide
theorem witness_ProcessEntryNeedsOneArgument : ([] : List String).length ≠ 1 ∧ ["a", "b"].length ≠ 1 ∧
    ["a"].length = 1 := by decide
theorem witness_ExitStatusOfRunState : State.reset.halt.run = .halted ∧
    (State.reset.takeFault .aluDivideByZero).run = .faulted ⟨.aluDivideByZero, 0⟩ ∧ State.reset.run = .running := by decide
theorem witness_HltHalts : (core 254 [] []).run = .running ∧ 254 ≤ (core 254 [] []).pc ∧ (core 254 [] []).pc ≤ 256 ∧
    254 ≤ (core 256 [] []).pc ∧ (core 256 [] []).pc ≤ 256 := by decide
/-- The boundary operands of LDI, PRN, PUSH, POP: 7 names a register, 8 does not. -/
theorem witness_one_register_operand : (7#8).toNat = (7 : RegIdx).val ∧ (0#8).toNat = (0 : RegIdx).val ∧ 8 ≤ (8#8).toNat := by
  decide
/-- PRN: an instruction that is no PRN. -/
theorem witness_PrnOutputsRegister : ∀ a, Instr.hlt ≠ .prn a := by simp
/-- The boundary operands of ADD, MUL and of the ALU by direct invocation. -/
theorem witness_two_register_operands : ((7#8).toNat = (7 : RegIdx).val ∧ (0#8).toNat = (0 : RegIdx).val) ∧
    8 ≤ (8#8).toNat ∧ ((7#8).toNat < 8 ∧ 8 ≤ (255#8).toNat) := by decide
theorem witness_PopLoadsFromStackPointer : (6#8).toNat = (6 : RegIdx).val ∧ (6 : RegIdx) ≠ 7 ∧ (7#8).toNat = (7 : RegIdx).val := by
  decide
/-- CALL at the last pc it can execute from, to a target from which the next fetch fails. -/
theorem witness_CallPushesReturnAddressAndJumps : (0#8).toNat = (0 : RegIdx).val ∧ (core 253 [0x50#8] [(0, 254#8)]).pc ≤ 253 ∧
    (after (core 253 [0x50#8] [(0, 254#8)])).run = .running ∧ 254 ≤ (after (core 253 [0x50#8] [(0, 254#8)])).pc := by decide
/-- RET to a target from which the next fetch fails. -/
theorem witness_RetPopsProgramCounter : (after { core 0 [] [(7, 254#8)] with mem := [(0, 0x11#8), (254, 255#8)] }).run = .running ∧
    254 ≤ (after { core 0 [] [(7, 254#8)] with mem := [(0, 0x11#8), (254, 255#8)] }).pc := by decide
theorem witness_RegisterOperandsAreCheckedFirst :
    (Instr.add 9#8 8#8).regOperands.find? (fun y => decide (8 ≤ y.toNat)) = some 9#8 ∧
    (Instr.mul 7#8 8#8).regOperands.find? (fun y => decide (8 ≤ y.toNat)) = some 8#8 ∧
    (Instr.ldi 7#8 255#8).regOperands.find? (fun y => decide (8 ≤ y.toNat)) = none := by decide
theorem witness_OperandSevenIsStackPointer : (0#8).toNat = (0 : RegIdx).val ∧ (7#8).toNat = (7 : RegIdx).val := by decide
/-- The registers that the last two clauses are about, at their boundaries, for the instructions with two columns. -/
theorem witness_RegisterUseMatchesTable_columns : (Instr.add 0#8 7#8).wf = true ∧ (Instr.add 0#8 7#8).writesReg 0 ∧
    (Instr.add 0#8 7#8).readsReg 0 ∧ (Instr.add 0#8 7#8).readsReg 7 ∧ (Instr.pop 6#8).writesReg 6 ∧ (Instr.pop 6#8).writesReg 7 ∧
    (Instr.pop 6#8).readsReg 7 := ⟨by decide, rfl, .inl rfl, .inr rfl, .inl rfl, .inr rfl, rfl⟩
/-- Two states that agree on what PRN R1 reads and differ elsewhere. -/
theorem witness_RegisterUseMatchesTable : (Instr.prn 1#8).wf = true ∧ (core 0 [] [(0, 5#8)]).mem = (core 0 [] []).mem ∧
    (core 0 [] [(0, 5#8)]).pc = (core 0 [] []).pc ∧ (core 0 [] [(0, 5#8)]).run = (core 0 [] []).run ∧
    (core 0 [] [(0, 5#8)]).out = (core 0 [] []).out ∧ (core 0 [] [(0, 5#8)]).regs ≠ (core 0 [] []).regs ∧
    ∀ r, (Instr.prn 1#8).readsReg r → (core 0 [] [(0, 5#8)]).reg r = (core 0 [] []).reg r := by
  refine ⟨by decide, by decide, by decide, by decide, by decide, by decide, fun r h => ?_⟩
  have h1 : r = 1 := Fin.ext h
  subst h1
  decide
theorem witness_HandlersUpdateProgramCounter : (Instr.prn 8#8).wf = false ∧ (Instr.call 7#8 = .call 7#8 ∧ (7#8).toNat = (7 : RegIdx).val) ∧
    ((Instr.ldi 7#8 255#8).wf = true ∧ Instr.ldi 7#8 255#8 ≠ .call 7#8 ∧ Instr.ldi 7#8 255#8 ≠ .ret) := by decide
theorem witness_AluAppliesNamedOperation : (0#8).toNat = (0 : RegIdx).val ∧ (7#8).toNat = (7 : RegIdx).val ∧
    (State.reset.reg 7).toNat ≠ 0 ∧ (State.reset.reg 0).toNat = 0 ∧ "AND" ∉ ["ADD", "SUB", "MUL", "DIV"] := by decide
theorem witness_AluArithmeticLaws : aluResult .add 200#8 100#8 = .ok 44#8 ∧ aluResult .add 100#8 255#8 = .ok 99#8 ∧
    aluResult .mul 16#8 16#8 = .ok 0#8 ∧ aluResult .mul 16#8 255#8 = .ok 240#8 := by decide
theorem witness_StackPrimitivesWrap : (core 0 [] [(7, 0#8)]).sp = 0#8 ∧ State.reset.sp = 255#8 := by decide
theorem witness_PushThenPopRestores : (7#8).toNat = (7 : RegIdx).val := by decide
/-- A later state with another pc and the SP and the stack cell that CALL left. -/
theorem witness_RetAfterCallReturnsBehindCall : (3#8).toNat = (3 : RegIdx).val ∧ (core 253 [] []).pc ≤ 253 ∧
    ((after (core 253 [0x50#8, 0x03#8] [(3, 20#8)])).setPc 77).sp = (after (core 253 [0x50#8, 0x03#8] [(3, 20#8)])).sp ∧
    Memory.read ((after (core 253 [0x50#8, 0x03#8] [(3, 20#8)])).setPc 77).mem 254 =
      Memory.read (after (core 253 [0x50#8, 0x03#8] [(3, 20#8)])).mem 254 := by decide
theorem witness_MemoryPrimitivesCheckRange : 256 ≤ 256 ∧ 255 < 256 := by decide
theorem witness_ReadReturnsLatestWrite : State.reset.memWrite 255 7#8 = .ok { State.reset with mem := [(255, 7#8)] } := by decide
theorem witness_CanonicalMemoryIsUnique : Memory.wf [(5, 1#8)] = true ∧ ∀ x, Memory.read [(5, 1#8)] x = Memory.read [(5, 1#8)] x :=
  ⟨by decide, fun _ => rfl⟩
/-- Two running cores at a POP that differ in a cell the step does not reach. -/
theorem witness_StepMemoryAccessMatchesTable :
    let s : State := { core 0 [] [(7, 254#8)] with mem := [(0, 0x46#8), (254, 9#8)] }
    let u : State := { core 0 [] [(7, 254#8)] with mem := [(0, 0x46#8), (100, 1#8), (254, 9#8)] }
    s.run = .running ∧ u.run = .running ∧ u.regs = s.regs ∧ u.pc = s.pc ∧ u.out = s.out ∧
      (∀ x, s.pc ≤ x → x ≤ s.pc + 2 → Memory.read u.mem x = Memory.read s.mem x) ∧
      Memory.read s.mem s.pc = 0x46#8 ∧ Memory.read u.mem s.sp.toNat = Memory.read s.mem s.sp.toNat ∧ u.mem ≠ s.mem := by
  refine ⟨rfl, rfl, rfl, rfl, rfl, fun x _ h => ?_, by decide, by decide, by decide⟩
  have h' : x ≤ 2 := h
  have h100 : x ≠ 100 := by omega
  simp [Memory.read, h100]
/-- The last pc from which the three bytes can be fetched and the first from which they cannot; the four instructions that
access Memory, with the boundary operands. -/
theorem witness_StepMemoryAccessMatchesTable_columns : (core 254 [] []).run = .running ∧ (core 254 [] []).pc = 254 ∧
    (core 253 [0x45#8, 0x07#8] []).pc ≤ 253 ∧ Memory.read (core 253 [0x45#8, 0x07#8] []).mem 253 = 0x45#8 ∧
    (Memory.read (core 253 [0x45#8, 0x07#8] []).mem 254).toNat = (7 : RegIdx).val ∧
    Memory.read (core 253 [0x46#8, 0x07#8] []).mem 253 = 0x46#8 ∧ Memory.read (core 0 [0x50#8] []).mem 0 = 0x50#8 ∧
    (Memory.read (core 0 [0x50#8] []).mem 1).toNat = (0 : RegIdx).val ∧ Memory.read (core 253 [0x11#8] []).mem 253 = 0x11#8 := by
  decide
/-- PUSH R0 whose store lands on the next instruction, and CALL R1 whose store lands on its target. -/
theorem witness_FetchSeesStoreOfPreviousStep :
    let s := core 6 [0x45#8, 0x00#8] [(0, 1#8), (7, 9#8)]
    let c := core 3 [0x50#8, 0x01#8] [(1, 253#8), (7, 254#8)]
    (s.run = .running ∧ s.pc ≤ 253 ∧ (Memory.read s.mem (s.pc + 1)).toNat = (0 : RegIdx).val ∧
      Memory.read s.mem s.pc = 0x45#8 ∧ s.pushAddr.toNat = s.pc + 2 ∧ s.pc + 2 ≤ 253) ∧
    (c.run = .running ∧ c.pc ≤ 253 ∧ (Memory.read c.mem (c.pc + 1)).toNat = (1 : RegIdx).val ∧
      Memory.read c.mem c.pc = 0x50#8 ∧ c.reg 1 = c.pushAddr ∧ c.pushAddr.toNat ≤ 253) := by decide
theorem witness_OpcodeMapDecodes : (0xA1#8 : Byte) ∉ opcodeBytes := by decide
theorem witness_EncodeOfDecodeIsPrefix : decode 0x47#8 7#8 0xFF#8 = .ok (.prn 7#8) ∧ 1 < (Instr.prn 7#8).length ∧
    2 < (Instr.add 0#8 1#8).length := by decide
/-- The five clauses of the loop body, at pc 256, 255, 254 and, at 253, an unknown opcode and HLT. -/
theorem witness_StepRunsDecodedInstruction : (core 0 [] []).run = .running ∧ 256 ≤ (core 256 [] []).pc ∧
    (core 255 [] []).pc = 255 ∧ (core 254 [] []).pc = 254 ∧
    ((core 253 [] []).pc ≤ 253 ∧ Memory.read (core 253 [] []).mem 253 ∉ opcodeBytes) ∧
    decode (Memory.read (core 253 [0x01#8] []).mem 253) (Memory.read (core 253 [0x01#8] []).mem 254)
      (Memory.read (core 253 [0x01#8] []).mem 255) = .ok .hlt := by decide
theorem witness_StepRunsEncodedInstruction : (core 253 [0x82#8, 0x00#8, 0x05#8] []).run = .running ∧
    ∀ (k : Nat) (h : k < (encode (.ldi 0#8 5#8)).length),
      Memory.read (core 253 [0x82#8, 0x00#8, 0x05#8] []).mem (253 + k) = (encode (.ldi 0#8 5#8))[k] := by decide
/-- The register clauses and the completing clause of the checks of a step; the fetch and opcode clauses stand in
`witness_StepRunsDecodedInstruction`. -/
theorem witness_StepReportsFirstFailingCheck : ((0x82#8 : Byte) ∈ usesRegA ∧ 8 ≤ (8#8).toNat) ∧
    ((0xA0#8 : Byte) ∈ usesRegB ∧ (7#8).toNat < 8 ∧ 8 ≤ (8#8).toNat) ∧
    ((0xA2#8 : Byte) ∈ opcodeBytes ∧ (7#8).toNat < 8) ∧
    (0x82#8 = Memory.read (core 253 [0x82#8, 0x08#8, 0xFF#8] []).mem 253 ∧
      8#8 = Memory.read (core 253 [0x82#8, 0x08#8, 0xFF#8] []).mem 254 ∧
      255#8 = Memory.read (core 253 [0x82#8, 0x08#8, 0xFF#8] []).mem 255) := by decide
theorem witness_FetchNearTopFaultsAt256 : (core 254 [] []).run = .running ∧ 254 ≤ (core 254 [] []).pc ∧
    (core 256 [] []).run = .running ∧ (core 256 [] []).pc ≤ 256 := by decide
theorem witness_UnknownOpcodeFaults : (core 253 [0xFF#8] []).run = .running ∧ (core 253 [0xFF#8] []).pc ≤ 253 ∧
    Memory.read (core 253 [0xFF#8] []).mem 253 ∉
      [0x01#8, 0x11#8, 0x45#8, 0x46#8, 0x47#8, 0x50#8, 0x82#8, 0xA0#8, 0xA2#8] := by decide
theorem witness_RunningStepEndsInOneOfThreeWays : (core 0 [0x11#8] []).run = .running ∧
    (after (core 0 [0x11#8] [])).run = .running ∧ (after (core 0 [0x01#8] [])).run = .halted ∧
    (after (core 0 [0x47#8, 0x08#8] [])).run = .faulted ⟨.registerIndexFault 8#8, 0⟩ := by decide
theorem witness_EndedCoreHasNoStep : State.reset.halt.run = .halted ∧
    ∃ f, (State.reset.takeFault (.memoryRangeFault 256)).run = .faulted f := ⟨rfl, _, rfl⟩
theorem witness_FatalConditionsArePrecise : (core 0 [0x47#8, 0x08#8] []).run = .running ∧
    step (core 0 [0x47#8, 0x08#8] []) = .next (after (core 0 [0x47#8, 0x08#8] [])) ∧
    (after (core 0 [0x47#8, 0x08#8] [])).run = .faulted ⟨.registerIndexFault 8#8, 0⟩ := ⟨by decide, by rfl, by decide⟩
/-- A PRN R7 at 253, and the three ways of the other clause. -/
theorem witness_OnlyPrnWritesOutput : (core 253 [0x47#8, 0x07#8] []).run = .running ∧
    (core 253 [0x47#8, 0x07#8] []).pc ≤ 253 ∧ Memory.read (core 253 [0x47#8, 0x07#8] []).mem 253 = 0x47#8 ∧
    (Memory.read (core 253 [0x47#8, 0x07#8] []).mem 254).toNat = (7 : RegIdx).val ∧
    254 ≤ (core 254 [] []).pc ∧ Memory.read (core 0 [] []).mem 0 ≠ 0x47#8 ∧
    8 ≤ (Memory.read (core 0 [0x47#8, 0x08#8] []).mem 1).toNat := by decide
/-- Two running cores that differ in what they have output. -/
theorem witness_StepDependsOnMemoryRegistersPc :
    let s := core 0 [0x47#8] []
    let u := (core 0 [0x47#8] []).output 5#8
    s.run = .running ∧ u.run = .running ∧ u.mem = s.mem ∧ u.regs = s.regs ∧ u.pc = s.pc ∧ u.out ≠ s.out := by decide
theorem witness_LaunchIsLegal : (List.replicate 256 1#8 : List Byte).length ≤ 256 := List.length_replicate.le
/-- A legal state with a step: HLT at the last address it can execute from. -/
theorem witness_StepKeepsLegalState : (core 253 [0x01#8] []).Inv ∧
    step (core 253 [0x01#8] []) = .next (after (core 253 [0x01#8] [])) :=
  ⟨⟨by decide, by decide, fun f h => nomatch h⟩, by rfl⟩
theorem witness_RunsRecordOnlyReachableFaults : ([0x47#8, 0x08#8] : List Byte).length ≤ 256 ∧
    (runFor 1 (launch [0x47#8, 0x08#8])).run = .faulted ⟨.registerIndexFault 8#8, 0⟩ := by decide
theorem witness_EndedRunIsStable : (runFor 1 (launch [0x01#8])).ended = true ∧
    (runResult 1 (launch [0x01#8])).isSome = true := by decide

end Sys2Proof.Tests
end

section
/-! Proofs of the statements about the state (10_state.md): launch, run state, output port, register use. The facts
about instructions and steps that they share stand first. -/

namespace Sys2Proof

/-! ## Register operands -/

theorem exists_reg_of_namesRegister {a : Byte} (h : namesRegister a = true) : ∃ r : RegIdx, a.toNat = r.val :=
  ⟨⟨a.toNat, of_decide_eq_true h⟩, rfl⟩

/-- Case analysis on a well-formed instruction: each register operand comes with the register it names. -/
theorem Instr.wf_cases {motive : (i : Instr) → i.wf = true → Prop}
    (hlt : ∀ h, motive .hlt h)
    (ldi : ∀ a b (r : RegIdx), a.toNat = r.val → ∀ h, motive (.ldi a b) h)
    (prn : ∀ a (r : RegIdx), a.toNat = r.val → ∀ h, motive (.prn a) h)
    (add : ∀ a b (ra rb : RegIdx), a.toNat = ra.val → b.toNat = rb.val → ∀ h, motive (.add a b) h)
    (mul : ∀ a b (ra rb : RegIdx), a.toNat = ra.val → b.toNat = rb.val → ∀ h, motive (.mul a b) h)
    (push : ∀ a (r : RegIdx), a.toNat = r.val → ∀ h, motive (.push a) h)
    (pop : ∀ a (r : RegIdx), a.toNat = r.val → ∀ h, motive (.pop a) h)
    (call : ∀ a (r : RegIdx), a.toNat = r.val → ∀ h, motive (.call a) h)
    (ret : ∀ h, motive .ret h) (i : Instr) (h : i.wf = true) : motive i h := by
  have reg : ∀ a ∈ i.regOperands, ∃ r : RegIdx, a.toNat = r.val := fun a ha =>
    exists_reg_of_namesRegister (List.all_eq_true.1 h a ha)
  cases i with
  | hlt => exact hlt h
  | ldi a b =>
    obtain ⟨r, hr⟩ := reg a (by simp [Instr.regOperands])
    exact ldi a b r hr h
  | prn a =>
    obtain ⟨r, hr⟩ := reg a (by simp [Instr.regOperands])
    exact prn a r hr h
  | add a b =>
    obtain ⟨ra, ha⟩ := reg a (by simp [Instr.regOperands])
    obtain ⟨rb, hb⟩ := reg b (by simp [Instr.regOperands])
    exact add a b ra rb ha hb h
  | mul a b =>
    obtain ⟨ra, ha⟩ := reg a (by simp [Instr.regOperands])
    obtain ⟨rb, hb⟩ := reg b (by simp [Instr.regOperands])
    exact mul a b ra rb ha hb h
  | push a =>
    obtain ⟨r, hr⟩ := reg a (by simp [Instr.regOperands])
    exact push a r hr h
  | pop a =>
    obtain ⟨r, hr⟩ := reg a (by simp [Instr.regOperands])
    exact pop a r hr h
  | call a =>
    obtain ⟨r, hr⟩ := reg a (by simp [Instr.regOperands])
    exact call a r hr h
  | ret => exact ret h

/-- A well-formed instruction is one with no register operand of 8 or more. -/
theorem Instr.wf_iff_find?_eq_none (i : Instr) :
    i.wf = true ↔ i.regOperands.find? (fun y => decide (8 ≤ y.toNat)) = none := by
  simp [Instr.wf, namesRegister]

end Sys2Proof

namespace Sys2Proof.Machine

/-! ## What a handler can do -/

theorem regIndex_bind_error {α : Type} {a x : Byte} {f : RegIdx → Except FaultKind α}
    (h : [a].find? (fun y => decide (8 ≤ y.toNat)) = some x) :
    (regIndex a >>= f) = .error (.registerIndexFault x) := by
  obtain ⟨ha, rfl⟩ : 8 ≤ a.toNat ∧ a = x := by simpa using h
  rw [regIndex_error ha, except_error_bind]

/-- Of two register operands, a is checked before b. -/
theorem regIndex_bind_bind_error {α : Type} {a b x : Byte} {f : RegIdx → RegIdx → Except FaultKind α}
    (h : [a, b].find? (fun y => decide (8 ≤ y.toNat)) = some x) :
    (regIndex a >>= fun ra => regIndex b >>= fun rb => f ra rb) = .error (.registerIndexFault x) := by
  obtain ⟨ra, ha, hok⟩ | ⟨ha, -⟩ := regIndex_cases a
  · rw [List.find?_cons_of_neg (by simp [ha])] at h
    rw [hok, except_ok_bind, regIndex_bind_error h]
  · rw [List.find?_cons_of_pos (by simpa using ha)] at h
    rw [regIndex_bind_error (by simpa [ha] using h)]

/-- The first register operand that names no register is the fault of the handler (40_fetch_execute.md R117). -/
theorem exec_registerIndexFault {i : Instr} {x : Byte}
    (h : i.regOperands.find? (fun y => decide (8 ≤ y.toNat)) = some x) (s : State) :
    exec i s = .next (s.takeFault (.registerIndexFault x)) := by
  cases i with
  | hlt => cases h
  | ldi a b => exact congrArg (conclude s) (regIndex_bind_error h)
  | prn a => exact congrArg (conclude s) (regIndex_bind_error h)
  | add a b => exact congrArg (conclude s) (regIndex_bind_bind_error h)
  | mul a b => exact congrArg (conclude s) (regIndex_bind_bind_error h)
  | push a => exact congrArg (conclude s) (regIndex_bind_error h)
  | pop a => exact congrArg (conclude s) (regIndex_bind_error h)
  | call a => exact congrArg (conclude s) (regIndex_bind_error h)
  | ret => cases h

/-- A well-formed instruction completes; HLT alone changes the run state, PRN alone the output port. -/
theorem exec_run_out_of_wf (i : Instr) (h : i.wf = true) (s : State) :
    ∃ t, exec i s = .next t ∧ (t.run = if i = .hlt then .halted else s.run) ∧
      ((∀ a, i ≠ .prn a) → t.out = s.out) := by
  cases i, h using Instr.wf_cases with
  | hlt => exact ⟨_, exec_hlt s, by simp, fun _ => rfl⟩
  | ldi a b r ha => exact ⟨_, exec_ldi s ha, by simp, fun _ => rfl⟩
  | prn a r ha => exact ⟨_, exec_prn s ha, by simp, fun hi => absurd rfl (hi a)⟩
  | add a b ra rb ha hb => exact ⟨_, exec_add s ha hb, by simp, fun _ => rfl⟩
  | mul a b ra rb ha hb => exact ⟨_, exec_mul s ha hb, by simp, fun _ => rfl⟩
  | push a r ha => exact ⟨_, exec_push s ha, by simp, fun _ => rfl⟩
  | pop a r ha => exact ⟨_, exec_pop s ha, by simp, fun _ => rfl⟩
  | call a r ha => exact ⟨_, exec_call s ha, by simp, fun _ => rfl⟩
  | ret => exact ⟨_, exec_ret s, by simp, fun _ => rfl⟩

/-- Every instruction but PRN, whether it completes or faults, leaves the output port. -/
theorem exec_out_of_not_prn {i : Instr} (hi : ∀ a, i ≠ .prn a) (s : State) :
    ∃ t, exec i s = .next t ∧ t.out = s.out := by
  cases hf : i.regOperands.find? (fun y => decide (8 ≤ y.toNat)) with
  | some x => exact ⟨_, exec_registerIndexFault hf s, State.takeFault_out ..⟩
  | none =>
    obtain ⟨t, ht, -, hout⟩ := exec_run_out_of_wf i (i.wf_iff_find?_eq_none.2 hf) s
    exact ⟨t, ht, hout hi⟩

/-! ## What a step can do -/

theorem decode_eq_unknownOpcode {op : Byte} (h : op ∉ opcodeBytes) (a b : Byte) :
    decode op a b = .error (.unknownOpcode op) := by
  simp only [opcodeBytes, List.mem_cons, List.not_mem_nil, not_or] at h
  unfold decode
  split <;> simp_all

theorem exists_decode_of_mem_opcodeBytes {op : Byte} (h : op ∈ opcodeBytes) (a b : Byte) :
    ∃ i, decode op a b = .ok i := by
  simp only [opcodeBytes, List.mem_cons, List.not_mem_nil, or_false] at h
  rcases h with rfl | rfl | rfl | rfl | rfl | rfl | rfl | rfl | rfl <;> exact ⟨_, rfl⟩

/-- A register operand of a decoded instruction is byte a or byte b, as its opcode says (30_encoding.md R89). -/
theorem decode_regOperands {op a b : Byte} {i : Instr} (h : decode op a b = .ok i) :
    ∀ x ∈ i.regOperands, (op ∈ usesRegA ∧ x = a) ∨ (op ∈ usesRegB ∧ x = b) := by
  rw [decode_ok_iff] at h
  rcases h with ⟨rfl, rfl⟩ | ⟨rfl, rfl⟩ | ⟨rfl, rfl⟩ | ⟨rfl, rfl⟩ | ⟨rfl, rfl⟩ | ⟨rfl, rfl⟩ | ⟨rfl, rfl⟩ | ⟨rfl, rfl⟩ |
    ⟨rfl, rfl⟩ <;> simp [Instr.regOperands, usesRegA, usesRegB]

theorem step_fetchFault {s : State} (hrun : s.run = .running) (h : 254 ≤ s.pc) :
    step s = .next (s.takeFault (.memoryRangeFault (if s.pc ≤ 256 then 256 else s.pc))) := by
  simp [step, hrun, s.fetchInstr_error h]

theorem step_unknownOpcode {s : State} (hrun : s.run = .running) (hpc : s.pc ≤ 253)
    (h : Memory.read s.mem s.pc ∉ opcodeBytes) :
    step s = .next (s.takeFault (.unknownOpcode (Memory.read s.mem s.pc))) := by
  simp [step, hrun, s.fetchInstr_ok hpc, lookupInstr_error (decode_eq_unknownOpcode h _ _), decodeFault]

theorem step_eq_exec {s : State} {i : Instr} (hrun : s.run = .running) (hpc : s.pc ≤ 253)
    (h : decode (Memory.read s.mem s.pc) (Memory.read s.mem (s.pc + 1)) (Memory.read s.mem (s.pc + 2)) = .ok i) :
    step s = exec i s := by
  simp [step, hrun, s.fetchInstr_ok hpc, lookupInstr_ok h]

/-- A running core's step: a fetch fails, or the opcode is unknown, or the decoded instruction runs
(40_fetch_execute.md R111). -/
theorem step_cases {s : State} (hrun : s.run = .running) :
    (254 ≤ s.pc ∧ ∃ k, step s = .next (s.takeFault k)) ∨
    (s.pc ≤ 253 ∧ Memory.read s.mem s.pc ∉ opcodeBytes ∧ ∃ k, step s = .next (s.takeFault k)) ∨
    (s.pc ≤ 253 ∧ ∃ i,
      decode (Memory.read s.mem s.pc) (Memory.read s.mem (s.pc + 1)) (Memory.read s.mem (s.pc + 2)) = .ok i ∧
      step s = exec i s) := by
  by_cases hpc : s.pc ≤ 253
  · by_cases hop : Memory.read s.mem s.pc ∈ opcodeBytes
    · obtain ⟨i, hi⟩ := exists_decode_of_mem_opcodeBytes hop _ _
      exact .inr (.inr ⟨hpc, i, hi, step_eq_exec hrun hpc hi⟩)
    · exact .inr (.inl ⟨hpc, hop, _, step_unknownOpcode hrun hpc hop⟩)
  · exact .inl ⟨by omega, _, step_fetchFault hrun (by omega)⟩

/-- A step that does not complete a PRN leaves the output port. -/
theorem step_out_of_not_prn {s : State} (hrun : s.run = .running)
    (h : 254 ≤ s.pc ∨ Memory.read s.mem s.pc ≠ 0x47#8 ∨ 8 ≤ (Memory.read s.mem (s.pc + 1)).toNat) :
    ∃ t, step s = .next t ∧ t.out = s.out := by
  obtain ⟨-, k, hk⟩ | ⟨-, -, k, hk⟩ | ⟨hpc, i, hi, hstep⟩ := step_cases hrun
  · exact ⟨_, hk, State.takeFault_out ..⟩
  · exact ⟨_, hk, State.takeFault_out ..⟩
  · rw [hstep]
    by_cases hprn : ∃ a, i = .prn a
    · obtain ⟨a, rfl⟩ := hprn
      obtain ⟨hop, rfl⟩ : Memory.read s.mem s.pc = 0x47#8 ∧ a = Memory.read s.mem (s.pc + 1) := by
        simpa using (decode_ok_iff ..).1 hi
      have ha : 8 ≤ (Memory.read s.mem (s.pc + 1)).toNat := by
        obtain h | h | h := h
        · omega
        · exact absurd hop h
        · exact h
      exact ⟨_, exec_registerIndexFault (List.find?_cons_of_pos (by simpa using ha)) s, State.takeFault_out ..⟩
    · exact exec_out_of_not_prn (not_exists.1 hprn) s

/-! ## Launch, run state, output port -/

/-- Settles O2: the image is read back cell by cell, the rest is the reset state's. -/
theorem launchStateHoldsImage : Obligations.LaunchStateHoldsImage := by
  intro image _
  have hread : ∀ x, Memory.read (launch image).mem x = if h : x < image.length then image[x] else 0#8 := by
    intro x
    simp [launch, launchWith, State.reset, storeImage_read]
  have hregs : ∀ r : RegIdx, r ≠ 7 → State.reset.reg r = 0#8 := by decide
  refine ⟨fun k h => ?_, fun x h _ => ?_, hregs, rfl, rfl, rfl, rfl⟩
  · simp [hread, h]
  · simp [hread, Nat.not_lt.2 h]

/-- Settles O6. -/
theorem exitStatusOfRunState : Obligations.ExitStatusOfRunState := by
  intro s
  refine ⟨fun h => ?_, fun f h => ?_, fun h => ?_⟩ <;> rw [State.exitStatus, h]

/-- Settles O40: `step` looks at the run state first. -/
theorem endedCoreHasNoStep : Obligations.EndedCoreHasNoStep := by
  rintro s (h | ⟨f, h⟩) t <;> simp [step, h]

/-- Settles O42: a completed PRN is read off its handler, every other step leaves the port. -/
theorem onlyPrnWritesOutput : Obligations.OnlyPrnWritesOutput := by
  refine ⟨rfl, fun s hrun => ?_⟩
  by_cases h : 254 ≤ s.pc ∨ Memory.read s.mem s.pc ≠ 0x47#8 ∨ 8 ≤ (Memory.read s.mem (s.pc + 1)).toNat
  · obtain ⟨t, ht, hout⟩ := step_out_of_not_prn hrun h
    refine ⟨t, ht, fun r hpc hop hr => ?_, fun _ => hout⟩
    have hr8 := r.isLt
    rcases h with h | h | h
    · omega
    · exact absurd hop h
    · omega
  · obtain ⟨hpc, hop, ha⟩ : s.pc < 254 ∧ Memory.read s.mem s.pc = 0x47#8 ∧
      (Memory.read s.mem (s.pc + 1)).toNat < 8 := by simpa using h
    have hdec := (decode_ok_iff (Memory.read s.mem s.pc) (Memory.read s.mem (s.pc + 1))
      (Memory.read s.mem (s.pc + 2)) (.prn (Memory.read s.mem (s.pc + 1)))).2 (by simp [hop])
    have hstep := step_eq_exec hrun (by omega) hdec
    refine ⟨_, hstep.trans (exec_prn (r := ⟨_, ha⟩) s rfl), fun r _ _ hr => ?_, fun h' => absurd h' h⟩
    simp [hr]

/-- Settles O39: the cases of a step, and for a decoded instruction whether its register operands pass the check. -/
theorem runningStepEndsInOneOfThreeWays : Obligations.RunningStepEndsInOneOfThreeWays := by
  refine ⟨rfl, fun s hrun => ?_⟩
  obtain ⟨hpc, k, hk⟩ | ⟨-, hop, k, hk⟩ | ⟨hpc, i, hi, hstep⟩ := step_cases hrun
  · exact ⟨_, hk, .inr (.inr ⟨⟨_, rfl⟩, .inl hpc⟩)⟩
  · exact ⟨_, hk, .inr (.inr ⟨⟨_, rfl⟩, .inr (.inl hop)⟩)⟩
  · rw [hstep]
    cases hf : i.regOperands.find? (fun y => decide (8 ≤ y.toNat)) with
    | some x =>
      have hx : 8 ≤ x.toNat := by simpa using List.find?_some hf
      refine ⟨_, exec_registerIndexFault hf s, .inr (.inr ⟨⟨_, rfl⟩, .inr (.inr ?_)⟩)⟩
      obtain ⟨hop, rfl⟩ | ⟨hop, rfl⟩ := decode_regOperands hi x (List.mem_of_find?_eq_some hf)
      · exact .inl ⟨hop, hx⟩
      · exact .inr ⟨hop, hx⟩
    | none =>
      obtain ⟨t, ht, htrun, -⟩ := exec_run_out_of_wf i (i.wf_iff_find?_eq_none.2 hf) s
      refine ⟨t, ht, ?_⟩
      by_cases hhlt : i = .hlt
      · subst hhlt
        have hop : Memory.read s.mem s.pc = 0x01#8 := by simpa using (decode_ok_iff ..).1 hi
        exact .inr (.inl ⟨hpc, hop, by simpa using htrun⟩)
      · exact .inl (by simpa [hhlt, hrun] using htrun)

/-! ## Register use (10_state.md R25) -/

/-- A register outside the writes column keeps its value. -/
theorem exec_keeps_unwritten (i : Instr) (h : i.wf = true) (s : State) :
    ∃ t, exec i s = .next t ∧ ∀ r, ¬ i.writesReg r → t.reg r = s.reg r := by
  cases i, h using Instr.wf_cases with
  | hlt => exact ⟨_, exec_hlt s, fun r _ => rfl⟩
  | ldi a b ra ha => exact ⟨_, exec_ldi s ha, fun r hr => s.reg_setReg_other ra r _ fun e => hr (e ▸ ha.symm)⟩
  | prn a ra ha => exact ⟨_, exec_prn s ha, fun r _ => rfl⟩
  | add a b ra rb ha hb =>
    exact ⟨_, exec_add s ha hb, fun r hr => s.reg_setReg_other ra r _ fun e => hr (e ▸ ha.symm)⟩
  | mul a b ra rb ha hb =>
    exact ⟨_, exec_mul s ha hb, fun r hr => s.reg_setReg_other ra r _ fun e => hr (e ▸ ha.symm)⟩
  | push a ra ha => exact ⟨_, exec_push s ha, fun r hr => s.reg_setReg_other 7 r _ hr⟩
  | pop a ra ha =>
    refine ⟨_, exec_pop s ha, fun r hr => ?_⟩
    obtain ⟨hra, hr7⟩ := not_or.1 hr
    exact (State.reg_setReg_other _ 7 r _ hr7).trans (s.reg_setReg_other ra r _ fun e => hra (e ▸ ha.symm))
  | call a ra ha => exact ⟨_, exec_call s ha, fun r hr => s.reg_setReg_other 7 r _ hr⟩
  | ret => exact ⟨_, exec_ret s, fun r hr => s.reg_setReg_other 7 r _ hr⟩

theorem State.reg_incSp_eq (s : State) (r : RegIdx) :
    s.incSp.reg r = if r = 7 then s.reg 7 + 1#8 else s.reg r := by
  rw [State.reg_incSp, State.sp_eq, trunc8_succ]

theorem State.pushAddr_congr {s u : State} (h : u.reg 7 = s.reg 7) : u.pushAddr = s.pushAddr := by
  rw [State.pushAddr_eq, State.pushAddr_eq, h]

/-- Registers outside the reads column have no influence: a state and the same state with other registers that agree on
the registers read end alike, but for the registers that are not written. -/
theorem exec_noninterference (i : Instr) (h : i.wf = true) (s : State) (w : Vector Byte 8)
    (hreg : ∀ r, i.readsReg r → { s with regs := w }.reg r = s.reg r) :
    ∃ t v, exec i s = .next t ∧ exec i { s with regs := w } = .next v ∧ v.mem = t.mem ∧ v.pc = t.pc ∧
      v.run = t.run ∧ v.out = t.out ∧ ∀ r, i.writesReg r → v.reg r = t.reg r := by
  cases i, h using Instr.wf_cases with
  | hlt => exact ⟨_, _, exec_hlt s, exec_hlt _, rfl, rfl, rfl, rfl, fun r hr => hr.elim⟩
  | ldi a b ra ha =>
    refine ⟨_, _, exec_ldi s ha, exec_ldi _ ha, rfl, rfl, rfl, rfl, fun r hr => ?_⟩
    obtain rfl : r = ra := Fin.ext (hr.trans ha)
    simp
  | prn a ra ha =>
    have hra := hreg ra ha.symm
    exact ⟨_, _, exec_prn s ha, exec_prn _ ha, rfl, rfl, rfl, by simp [hra], fun r hr => hr.elim⟩
  | add a b ra rb ha hb =>
    have hra := hreg ra (.inl ha.symm)
    have hrb := hreg rb (.inr hb.symm)
    refine ⟨_, _, exec_add s ha hb, exec_add _ ha hb, rfl, rfl, rfl, rfl, fun r hr => ?_⟩
    obtain rfl : r = ra := Fin.ext (hr.trans ha)
    simp [hra, hrb]
  | mul a b ra rb ha hb =>
    have hra := hreg ra (.inl ha.symm)
    have hrb := hreg rb (.inr hb.symm)
    refine ⟨_, _, exec_mul s ha hb, exec_mul _ ha hb, rfl, rfl, rfl, rfl, fun r hr => ?_⟩
    obtain rfl : r = ra := Fin.ext (hr.trans ha)
    simp [hra, hrb]
  | push a ra ha =>
    have hra := hreg ra (.inr ha.symm)
    have hsp := State.pushAddr_congr (hreg 7 (.inl rfl))
    refine ⟨_, _, exec_push s ha, exec_push _ ha, by simp [State.reg_decSp, hra, hsp], rfl, rfl, rfl, fun r hr => ?_⟩
    obtain rfl : r = 7 := hr
    simp [hsp]
  | pop a ra ha =>
    have h7 := hreg 7 rfl
    refine ⟨_, _, exec_pop s ha, exec_pop _ ha, rfl, rfl, rfl, rfl, fun r hr => ?_⟩
    obtain rfl | rfl : r = ra ∨ r = 7 := hr.imp_left fun e => Fin.ext (e.trans ha)
    · simp [State.reg_incSp_eq, State.reg_setReg, h7]
    · simp [State.reg_incSp_eq, State.reg_setReg, h7]
  | call a ra ha =>
    have hra := hreg ra (.inr ha.symm)
    have hsp := State.pushAddr_congr (hreg 7 (.inl rfl))
    refine ⟨_, _, exec_call s ha, exec_call _ ha, by simp [State.returnAddr, hsp], by simp [State.reg_decSp, hra, hsp],
      rfl, rfl, fun r hr => ?_⟩
    obtain rfl : r = 7 := hr
    simp [hsp]
  | ret =>
    have h7 := hreg 7 rfl
    refine ⟨_, _, exec_ret s, exec_ret _, rfl, by simp [h7], rfl, rfl, fun r hr => ?_⟩
    obtain rfl : r = 7 := hr
    simp [State.reg_incSp_eq, h7]

/-- The reset state with Memory `m` and the value `v` in every register. -/
def uniformState (m : Memory) (v : Byte) : State := { State.reset with mem := m, regs := Vector.replicate 8 v }

@[simp] theorem uniformState_mem (m : Memory) (v : Byte) : (uniformState m v).mem = m := rfl
@[simp] theorem uniformState_out (m : Memory) (v : Byte) : (uniformState m v).out = [] := rfl
@[simp] theorem uniformState_reg (m : Memory) (v : Byte) (r : RegIdx) : (uniformState m v).reg r = v := by
  simp [uniformState, State.reg, Vector.get_eq_getElem]

/-- Every register of the writes column changes in some state. -/
theorem exists_exec_changes_written (i : Instr) (h : i.wf = true) (r : RegIdx) (hr : i.writesReg r) :
    ∃ s t, exec i s = .next t ∧ t.reg r ≠ s.reg r := by
  cases i, h using Instr.wf_cases with
  | hlt => exact hr.elim
  | ldi a b ra ha =>
    obtain rfl : r = ra := Fin.ext (hr.trans ha)
    exact ⟨uniformState [] (b + 1#8), _, exec_ldi _ ha, by simp⟩
  | prn a ra ha => exact hr.elim
  | add a b ra rb ha hb =>
    obtain rfl : r = ra := Fin.ext (hr.trans ha)
    exact ⟨uniformState [] 2#8, _, exec_add _ ha hb, by simp⟩
  | mul a b ra rb ha hb =>
    obtain rfl : r = ra := Fin.ext (hr.trans ha)
    exact ⟨uniformState [] 2#8, _, exec_mul _ ha hb, by simp⟩
  | push a ra ha =>
    obtain rfl : r = 7 := hr
    exact ⟨uniformState [] 2#8, _, exec_push _ ha, by simp [State.pushAddr_eq]⟩
  | pop a ra ha =>
    refine ⟨uniformState [] 2#8, _, exec_pop _ ha, ?_⟩
    obtain rfl | rfl : r = ra ∨ r = 7 := hr.imp_left fun e => Fin.ext (e.trans ha)
    · by_cases h7 : r = 7 <;> simp [State.reg_incSp_eq, h7]
    · by_cases h7 : ra = 7 <;> simp [State.reg_incSp_eq, State.reg_setReg, h7]
  | call a ra ha =>
    obtain rfl : r = 7 := hr
    exact ⟨uniformState [] 2#8, _, exec_call _ ha, by simp [State.pushAddr_eq]⟩
  | ret =>
    obtain rfl : r = 7 := hr
    exact ⟨uniformState [] 2#8, _, exec_ret _, by simp [State.reg_incSp_eq]⟩

/-- Every register of the reads column has an influence: it is seen between a state with 1 in every register and the
same state with 2 in that one. Cell 1 holds 1 and cell 2 holds 0, so that POP R7, which overwrites SP, shows SP too. -/
theorem exec_shows_read (i : Instr) (h : i.wf = true) (r : RegIdx) (hr : i.readsReg r) :
    ∃ t v, exec i (uniformState [(1, 1#8)] 1#8) = .next t ∧
      exec i ((uniformState [(1, 1#8)] 1#8).setReg r 2#8) = .next v ∧
      (¬ SameMemory t v ∨ v.pc ≠ t.pc ∨ v.out ≠ t.out ∨ ∃ q, i.writesReg q ∧ v.reg q ≠ t.reg q) := by
  cases i, h using Instr.wf_cases with
  | hlt => exact hr.elim
  | ldi a b ra ha => exact hr.elim
  | prn a ra ha =>
    obtain rfl : r = ra := Fin.ext (hr.trans ha)
    exact ⟨_, _, exec_prn _ ha, exec_prn _ ha, .inr (.inr (.inl (by simp)))⟩
  | add a b ra rb ha hb =>
    refine ⟨_, _, exec_add _ ha hb, exec_add _ ha hb, .inr (.inr (.inr ⟨ra, ha.symm, ?_⟩))⟩
    obtain rfl | rfl : r = ra ∨ r = rb := hr.imp (fun e => Fin.ext (e.trans ha)) fun e => Fin.ext (e.trans hb)
    · by_cases hab : r = rb <;> simp [State.reg_setReg, hab]
    · by_cases hab : r = ra <;> simp [State.reg_setReg, hab]
  | mul a b ra rb ha hb =>
    refine ⟨_, _, exec_mul _ ha hb, exec_mul _ ha hb, .inr (.inr (.inr ⟨ra, ha.symm, ?_⟩))⟩
    obtain rfl | rfl : r = ra ∨ r = rb := hr.imp (fun e => Fin.ext (e.trans ha)) fun e => Fin.ext (e.trans hb)
    · by_cases hab : r = rb <;> simp [State.reg_setReg, hab]
    · by_cases hab : r = ra <;> simp [State.reg_setReg, hab]
  | push a ra ha =>
    refine ⟨_, _, exec_push _ ha, exec_push _ ha, ?_⟩
    by_cases h7 : r = 7
    · exact .inr (.inr (.inr ⟨7, rfl, by simp [State.pushAddr_eq, h7]⟩))
    · obtain rfl : r = ra := (hr.resolve_left h7).trans ha |> Fin.ext
      refine .inl fun hsame => ?_
      have h0 := hsame 0
      simp [State.pushAddr_eq, State.reg_decSp, State.reg_setReg, h7] at h0
  | pop a ra ha =>
    obtain rfl : r = 7 := hr
    refine ⟨_, _, exec_pop _ ha, exec_pop _ ha, .inr (.inr (.inr ⟨7, .inr rfl, ?_⟩))⟩
    by_cases h7 : ra = 7 <;> simp [State.reg_incSp_eq, State.reg_setReg, h7, Memory.read_cons]
  | call a ra ha =>
    refine ⟨_, _, exec_call _ ha, exec_call _ ha, ?_⟩
    by_cases h7 : r = 7
    · exact .inr (.inr (.inr ⟨7, rfl, by simp [State.pushAddr_eq, h7]⟩))
    · obtain rfl : r = ra := (hr.resolve_left h7).trans ha |> Fin.ext
      exact .inr (.inl (by simp [State.reg_decSp, h7]))
  | ret =>
    obtain rfl : r = 7 := hr
    exact ⟨_, _, exec_ret _, exec_ret _, .inr (.inr (.inr ⟨7, rfl, by simp [State.reg_incSp_eq]⟩))⟩

/-- Settles O18: nothing outside the table is written or has an influence, and everything in it is or has. -/
theorem registerUseMatchesTable : Obligations.RegisterUseMatchesTable := by
  intro i h
  refine ⟨exec_keeps_unwritten i h, fun s u hmem hpc hrun hout hreg => ?_, exists_exec_changes_written i h,
    fun r hr => ?_⟩
  · have hu : { s with regs := u.regs } = u := by rw [← hmem, ← hpc, ← hrun, ← hout]
    have hni := exec_noninterference i h s u.regs (by rwa [hu])
    rwa [hu] at hni
  · obtain ⟨t, v, ht, hv, hdiff⟩ := exec_shows_read i h r hr
    exact ⟨uniformState [(1, 1#8)] 1#8, (uniformState [(1, 1#8)] 1#8).setReg r 2#8, t, v, rfl, rfl, rfl, rfl,
      fun q hq => State.reg_setReg_other _ r q _ hq, ht, hv, hdiff⟩

end Sys2Proof.Machine
end

section
/-! Proofs of the statements about Memory (20_memory.md): the cells a step reads and writes, the stack primitives. -/

namespace Sys2Proof.Machine

/-! ## The stack primitives -/

theorem State.pushAddr_toNat (s : State) : s.pushAddr.toNat = (s.sp.toNat + 255) % 256 := by
  rw [State.pushAddr_eq, State.sp_eq, BitVec.toNat_sub, Nat.add_comm]
  rfl

theorem State.incSp_sp_toNat (s : State) : s.incSp.sp.toNat = (s.sp.toNat + 1) % 256 := by
  rw [State.sp_eq s.incSp, State.reg_incSp, if_pos rfl]
  exact trunc8_toNat (s.sp.toNat + 1)

/-- Settles O22: neither primitive can fail, and each moves SP by one modulo 256. -/
theorem stackPrimitivesWrap : Obligations.StackPrimitivesWrap := by
  intro v s
  refine ⟨⟨_, s.pushByte_eq v, ?_⟩, ⟨_, s.popByte_eq, s.incSp_sp_toNat, fun x => rfl, ?_, rfl, rfl, rfl⟩,
    fun hsp => ⟨_, s.pushByte_eq v, ?_⟩, fun hsp => ⟨s.incSp, ?_, ?_⟩⟩
  · have hsp : (s.decSp.setMem (Memory.write s.mem s.pushAddr.toNat v)).sp = s.pushAddr := by simp
    rw [hsp]
    exact ⟨s.pushAddr_toNat, Memory.read_write_same .., fun x hx => Memory.read_write_other hx ..,
      fun q hq => s.reg_setReg_other 7 q _ hq, rfl, rfl, rfl⟩
  · exact fun q hq => s.reg_setReg_other 7 q _ hq
  · have haddr : s.pushAddr = 255#8 := by rw [State.pushAddr_eq, ← State.sp_eq, hsp]; rfl
    simp [haddr]
  · rw [State.popByte_eq, ← State.sp_eq, hsp]
    rfl
  · rw [State.sp_eq, State.reg_incSp, if_pos rfl, hsp]
    rfl

/-! ## Memory with at most one store -/

/-- Memory after a store to cell `a` that may be absent. -/
def Memory.writeOpt (m : Memory) (a : Nat) : Option Byte → Memory
  | none => m
  | some v => Memory.write m a v

/-- The same store keeps a cell equal in two memories. -/
theorem Memory.read_writeOpt_congr {m n : Memory} {x : Nat} (h : Memory.read n x = Memory.read m x) (a : Nat)
    (w : Option Byte) : Memory.read (Memory.writeOpt n a w) x = Memory.read (Memory.writeOpt m a w) x := by
  cases w with
  | none => exact h
  | some v => simp [Memory.writeOpt, Memory.read_write, h]

theorem Memory.stored_of_read_writeOpt_ne {m : Memory} {a x : Nat} {w : Option Byte}
    (h : Memory.read (Memory.writeOpt m a w) x ≠ Memory.read m x) : w.isSome ∧ x = a := by
  cases w with
  | none => exact absurd rfl h
  | some v => exact ⟨rfl, not_not.1 fun hx => h (Memory.read_write_other hx m v)⟩

/-! ## The cells an instruction reads and writes beyond the fetch (20_memory.md R55) -/

/-- A handler's use of Memory: it stores at most one byte, at the push address and by PUSH or CALL, and depends on no
cell but, in POP and RET, the one at SP. So the same handler on another Memory `m` ends in the same state `t`, with the
same store made to `m`. -/
theorem exec_memory_access (i : Instr) (s : State) (m : Memory)
    (hcell : (∃ a, i = .pop a) ∨ i = .ret → Memory.read m (s.reg 7).toNat = Memory.read s.mem (s.reg 7).toNat) :
    ∃ (t : State) (w : Option Byte), (w.isSome → ∃ a, i = .push a ∨ i = .call a) ∧
      exec i s = .next (t.setMem (Memory.writeOpt s.mem s.pushAddr.toNat w)) ∧
      exec i (s.setMem m) = .next (t.setMem (Memory.writeOpt m s.pushAddr.toNat w)) := by
  cases hf : i.regOperands.find? (fun y => decide (8 ≤ y.toNat)) with
  | some x => exact ⟨s.takeFault (.registerIndexFault x), none, nofun,
      exec_registerIndexFault hf s, exec_registerIndexFault hf (s.setMem m)⟩
  | none =>
    cases i, i.wf_iff_find?_eq_none.2 hf using Instr.wf_cases with
    | hlt => exact ⟨s.halt.advance 1, none, nofun, exec_hlt s, exec_hlt (s.setMem m)⟩
    | ldi a b r ha =>
      exact ⟨(s.setReg r b).advance 3, none, nofun, exec_ldi s ha, exec_ldi (s.setMem m) ha⟩
    | prn a r ha =>
      exact ⟨(s.output (s.reg r)).advance 2, none, nofun, exec_prn s ha, exec_prn (s.setMem m) ha⟩
    | add a b ra rb ha hb =>
      exact ⟨(s.setReg ra (s.reg ra + s.reg rb)).advance 3, none, nofun,
        exec_add s ha hb, exec_add (s.setMem m) ha hb⟩
    | mul a b ra rb ha hb =>
      exact ⟨(s.setReg ra (s.reg ra * s.reg rb)).advance 3, none, nofun,
        exec_mul s ha hb, exec_mul (s.setMem m) ha hb⟩
    | push a r ha => exact ⟨s.decSp.advance 2, some (s.decSp.reg r), fun _ => ⟨a, .inl rfl⟩,
        exec_push s ha, exec_push (s.setMem m) ha⟩
    | pop a r ha =>
      refine ⟨(s.setReg r (Memory.read s.mem (s.reg 7).toNat)).incSp.advance 2, none, nofun,
        exec_pop s ha, ?_⟩
      rw [exec_pop (s.setMem m) ha, State.setMem_reg, State.setMem_mem, hcell (.inl ⟨a, rfl⟩)]
      rfl
    | call a r ha => exact ⟨s.decSp.setPc (s.decSp.reg r).toNat, some s.returnAddr, fun _ => ⟨a, .inr rfl⟩,
        exec_call s ha, exec_call (s.setMem m) ha⟩
    | ret =>
      refine ⟨s.incSp.setPc (Memory.read s.mem (s.reg 7).toNat).toNat, none, nofun, exec_ret s, ?_⟩
      rw [exec_ret (s.setMem m), State.setMem_reg, State.setMem_mem, hcell (.inr rfl)]
      rfl

/-- The decoder matches the whole opcode byte (30_encoding.md R85). -/
theorem decode_opcode {op a b : Byte} {i : Instr} (h : decode op a b = .ok i) : i.opcode = op := by
  rw [decode_ok_iff] at h
  rcases h with ⟨rfl, rfl⟩ | ⟨rfl, rfl⟩ | ⟨rfl, rfl⟩ | ⟨rfl, rfl⟩ | ⟨rfl, rfl⟩ | ⟨rfl, rfl⟩ | ⟨rfl, rfl⟩ | ⟨rfl, rfl⟩ |
    ⟨rfl, rfl⟩ <;> rfl

/-- A step's use of Memory: beyond the fetched cells it is the handler's. -/
theorem step_memory_access {s : State} (hrun : s.run = .running) (m : Memory)
    (hfetch : ∀ x, s.pc ≤ x → x ≤ s.pc + 2 → Memory.read m x = Memory.read s.mem x)
    (hcell : Memory.read s.mem s.pc = 0x46#8 ∨ Memory.read s.mem s.pc = 0x11#8 →
      Memory.read m (s.reg 7).toNat = Memory.read s.mem (s.reg 7).toNat) :
    ∃ (t : State) (w : Option Byte), (w.isSome → Memory.read s.mem s.pc = 0x45#8 ∨ Memory.read s.mem s.pc = 0x50#8) ∧
      step s = .next (t.setMem (Memory.writeOpt s.mem s.pushAddr.toNat w)) ∧
      step (s.setMem m) = .next (t.setMem (Memory.writeOpt m s.pushAddr.toNat w)) := by
  have hop := hfetch s.pc (by omega) (by omega)
  by_cases hpc : s.pc ≤ 253
  · by_cases hmem : Memory.read s.mem s.pc ∈ opcodeBytes
    · obtain ⟨i, hi⟩ := exists_decode_of_mem_opcodeBytes hmem (Memory.read s.mem (s.pc + 1))
        (Memory.read s.mem (s.pc + 2))
      have hi' := hi
      rw [← hop, ← hfetch (s.pc + 1) (by omega) (by omega), ← hfetch (s.pc + 2) (by omega) (by omega)] at hi'
      rw [step_eq_exec hrun hpc hi, step_eq_exec (s := s.setMem m) hrun hpc hi']
      have hdec := decode_opcode hi
      have hpops : (∃ a, i = .pop a) ∨ i = .ret →
          Memory.read s.mem s.pc = 0x46#8 ∨ Memory.read s.mem s.pc = 0x11#8 := by
        rintro (⟨a, rfl⟩ | rfl)
        · exact .inl hdec.symm
        · exact .inr hdec.symm
      have hpushes : (∃ a, i = .push a ∨ i = .call a) →
          Memory.read s.mem s.pc = 0x45#8 ∨ Memory.read s.mem s.pc = 0x50#8 := by
        rintro ⟨a, rfl | rfl⟩
        · exact .inl hdec.symm
        · exact .inr hdec.symm
      obtain ⟨t, w, hw, ht, hv⟩ := exec_memory_access i s m (hcell ∘ hpops)
      exact ⟨t, w, hpushes ∘ hw, ht, hv⟩
    · refine ⟨s.takeFault (.unknownOpcode (Memory.read s.mem s.pc)), none, nofun,
        step_unknownOpcode hrun hpc hmem, ?_⟩
      rw [← hop] at hmem ⊢
      exact step_unknownOpcode (s := s.setMem m) hrun hpc hmem
  · exact ⟨s.takeFault (.memoryRangeFault (if s.pc ≤ 256 then 256 else s.pc)), none, nofun,
      step_fetchFault hrun (by omega), step_fetchFault (s := s.setMem m) hrun (Nat.lt_of_not_le hpc)⟩

/-! ## The steps that access Memory beyond the fetch -/

section
variable {s : State} {r : RegIdx} (hrun : s.run = .running) (hpc : s.pc ≤ 253)
include hrun hpc

theorem step_push (hr : (Memory.read s.mem (s.pc + 1)).toNat = r.val) (hop : Memory.read s.mem s.pc = 0x45#8) :
    step s = .next ((s.decSp.setMem (Memory.write s.mem s.pushAddr.toNat (s.decSp.reg r))).advance 2) :=
  (step_eq_exec hrun hpc (hop ▸ rfl)).trans (exec_push s hr)

theorem step_pop (hr : (Memory.read s.mem (s.pc + 1)).toNat = r.val) (hop : Memory.read s.mem s.pc = 0x46#8) :
    step s = .next ((s.setReg r (Memory.read s.mem (s.reg 7).toNat)).incSp.advance 2) :=
  (step_eq_exec hrun hpc (hop ▸ rfl)).trans (exec_pop s hr)

theorem step_call (hr : (Memory.read s.mem (s.pc + 1)).toNat = r.val) (hop : Memory.read s.mem s.pc = 0x50#8) :
    step s = .next
      ((s.decSp.setMem (Memory.write s.mem s.pushAddr.toNat s.returnAddr)).setPc (s.decSp.reg r).toNat) :=
  (step_eq_exec hrun hpc (hop ▸ rfl)).trans (exec_call s hr)

theorem step_ret (hop : Memory.read s.mem s.pc = 0x11#8) :
    step s = .next (s.incSp.setPc (Memory.read s.mem (s.reg 7).toNat).toNat) :=
  (step_eq_exec hrun hpc (hop ▸ rfl)).trans (exec_ret s)

end

/-- Settles O28: no cell outside the table is read or written, by `step_memory_access`; every cell in it is, by the
next state of each step that accesses it. -/
theorem stepMemoryAccessMatchesTable : Obligations.StepMemoryAccessMatchesTable := by
  refine ⟨fun s u hrun hurun hregs hpc hout hfetch hcell => ?_, fun s hrun => ⟨fun hpc => ?_, fun hpc =>
    ⟨s.fetch_ok hpc, fun r hr => ⟨fun hop => ?_, fun hop => ?_, fun hop => ?_⟩, fun hop => ?_⟩⟩⟩
  · have hu : s.setMem u.mem = u := by rw [State.setMem, ← hregs, ← hpc, ← hout, hrun, ← hurun]
    obtain ⟨t, w, hw, ht, hv⟩ := step_memory_access hrun u.mem hfetch hcell
    rw [hu] at hv
    refine ⟨_, _, ht, hv, rfl, rfl, rfl, rfl, fun x hx => Memory.read_writeOpt_congr hx _ w, fun x hx => ?_⟩
    obtain ⟨hsome, haddr⟩ := Memory.stored_of_read_writeOpt_ne hx
    exact ⟨hw hsome, haddr⟩
  · rw [step_fetchFault hrun hpc.ge, hpc]
    rfl
  · exact ⟨_, step_push hrun hpc hr hop, by simp [State.reg_decSp]⟩
  · exact ⟨_, step_call hrun hpc hr hop, by simp [s.returnAddr_toNat hpc]⟩
  · refine ⟨_, step_pop hrun hpc hr hop, ?_⟩
    by_cases h7 : r = 7 <;> simp [State.reg_incSp_eq, h7]
  · exact ⟨_, step_ret hrun hpc hop, rfl⟩

end Sys2Proof.Machine
end

section
/-! Proofs of the statements about the opcode map (30_encoding.md): the bytes that are no opcode. -/

namespace Sys2Proof.Machine

/-- The nine opcode bytes are among those of R88's sentence, which lists them in rising order. -/
theorem opcodeBytes_subset_ascending :
    opcodeBytes ⊆ [0x01#8, 0x11#8, 0x45#8, 0x46#8, 0x47#8, 0x50#8, 0x82#8, 0xA0#8, 0xA2#8] := by
  decide

/-- Settles O38: the step takes the lookup's fault, which changes the run state alone. -/
theorem unknownOpcodeFaults : Obligations.UnknownOpcodeFaults := by
  refine ⟨fun s hrun hpc hop => ?_, by decide⟩
  have hunknown : Memory.read s.mem s.pc ∉ opcodeBytes := fun hmem => hop (opcodeBytes_subset_ascending hmem)
  exact ⟨_, step_unknownOpcode hrun hpc hunknown, rfl, rfl, rfl, rfl, rfl⟩

end Sys2Proof.Machine
end

section
/-! Proofs of the statements about the loop body and the handlers' checks (40_fetch_execute.md): the opcode map, the
step as fetch, lookup and handler, the register-index check, the fatal conditions. -/

namespace Sys2Proof.Machine

/-! ## The opcode map and the loop body -/

/-- Settles O30: a byte outside the nine is no row of the decoder's table, and the rows are read off it. -/
theorem opcodeMapDecodes : Obligations.OpcodeMapDecodes := by
  intro a b
  exact ⟨fun op hop => decode_eq_unknownOpcode hop a b, rfl, rfl, rfl, rfl, rfl, rfl, rfl, rfl, rfl,
    rfl, rfl, rfl, rfl, rfl, rfl, rfl, rfl, rfl⟩

/-- Below 256 the first address of a fetch that does not exist is 256, from 256 on it is pc itself
(40_fetch_execute.md R111). -/
theorem step_memoryRangeFault {s : State} {addr : Nat} (hrun : s.run = .running) (hpc : 254 ≤ s.pc)
    (haddr : addr = max s.pc 256) : step s = .next (faultedWith s (.memoryRangeFault addr)) := by
  have hfirst : (if s.pc ≤ 256 then 256 else s.pc) = addr := by rw [haddr, max_def]
  rw [step_fetchFault hrun hpc, hfirst]
  rfl

/-- Settles O34: the three fetch checks are one, at the first address that does not exist; the other clauses are the
lookup's two answers. -/
theorem stepRunsDecodedInstruction : Obligations.StepRunsDecodedInstruction := by
  intro s hrun
  refine ⟨fun hpc => ?_, fun hpc => ?_, fun hpc => ?_, fun hpc hop => ?_, fun i hpc hi => ?_⟩
  · exact step_memoryRangeFault hrun (by omega) (by omega)
  · exact step_memoryRangeFault hrun (by omega) (by omega)
  · exact step_memoryRangeFault hrun (by omega) (by omega)
  · exact step_unknownOpcode hrun hpc hop
  · exact step_eq_exec hrun hpc hi

/-! ## The checks of a handler -/

/-- Settles O17: the check of the operands in their order, and the completed instruction where all of them pass. -/
theorem registerOperandsAreCheckedFirst : Obligations.RegisterOperandsAreCheckedFirst := by
  refine fun i s => ⟨fun x hx => exec_registerIndexFault hx s, fun hnone => ?_⟩
  obtain ⟨t, ht, hrun, -⟩ := exec_run_out_of_wf i (i.wf_iff_find?_eq_none.2 hnone) s
  refine ⟨t, ht, ?_⟩
  split
  · next hhlt => rwa [if_pos hhlt] at hrun
  · next hhlt => rwa [if_neg hhlt] at hrun

/-! ## Fatal conditions -/

/-- A handler that ends Faulted has taken a fatal condition in the state it started from: a completed one is Halted or
in the run state it started with. -/
theorem exec_takeFault_of_faulted {i : Instr} {s t : State} {f : FaultRecord} (hrun : s.run = .running)
    (hexec : exec i s = .next t) (hf : t.run = .faulted f) : ∃ k, t = s.takeFault k := by
  obtain ⟨hfault, hcomplete⟩ := registerOperandsAreCheckedFirst i s
  cases hfind : i.regOperands.find? (fun y => decide (8 ≤ y.toNat)) with
  | some x => exact ⟨.registerIndexFault x, Host.Outcome.next.inj (hexec.symm.trans (hfault x hfind))⟩
  | none =>
    obtain ⟨u, hu, hurun⟩ := hcomplete hfind
    obtain rfl : t = u := Host.Outcome.next.inj (hexec.symm.trans hu)
    rw [hf, hrun] at hurun
    split at hurun <;> cases hurun

/-- A step that ends Faulted has taken a fatal condition in the state it started from, whichever check failed: the
fetch's, the lookup's or the handler's (40_fetch_execute.md R119). -/
theorem step_takeFault_of_faulted {s t : State} {f : FaultRecord} (hrun : s.run = .running)
    (hstep : step s = .next t) (hf : t.run = .faulted f) : ∃ k, t = s.takeFault k := by
  obtain ⟨-, k, hk⟩ | ⟨-, -, k, hk⟩ | ⟨-, i, -, hexec⟩ := step_cases hrun
  · exact ⟨k, Host.Outcome.next.inj (hstep.symm.trans hk)⟩
  · exact ⟨k, Host.Outcome.next.inj (hstep.symm.trans hk)⟩
  · exact exec_takeFault_of_faulted hrun (hexec.symm.trans hstep) hf

/-- Settles O41: such a step has taken a fatal condition, which changes the run state alone. -/
theorem fatalConditionsArePrecise : Obligations.FatalConditionsArePrecise := by
  intro s t f hrun hstep hf
  obtain ⟨k, rfl⟩ := step_takeFault_of_faulted hrun hstep hf
  obtain rfl : ⟨k, s.pc⟩ = f := RunState.faulted.inj hf
  exact ⟨rfl, rfl, rfl, rfl, rfl⟩

end Sys2Proof.Machine
end

section
/-! Proof of the statement about HLT (41_system.md R130). -/

namespace Sys2Proof.Machine

/-- Settles O7: HLT halts and advances, so the core has ended with status 0; where the pc leaves no room for three
bytes, the fetch fails before any lookup. -/
theorem hltHalts : Obligations.HltHalts := by
  intro a b s
  obtain ⟨-, hdecode, -⟩ := opcodeMapDecodes a b
  obtain ⟨hstatus, -⟩ := exitStatusOfRunState (s.halt.advance 1)
  refine ⟨hdecode, ⟨_, exec_hlt s, rfl, rfl, fun _ => rfl, fun _ => rfl, rfl, hstatus rfl, ?_⟩,
    fun hrun hlo hhi => step_memoryRangeFault hrun hlo (max_eq_right hhi).symm⟩
  exact endedCoreHasNoStep _ (.inl rfl)

end Sys2Proof.Machine
end

section
/-! Proofs of the statements about data movement and output (42_data.md): LDI and PRN. -/

namespace Sys2Proof.Machine

/-- A first register operand of 8 or more is the handler's fault, whatever the second (40_fetch_execute.md R117). -/
theorem exec_first_operand_fault {i : Instr} {a : Byte} {rest : List Byte} (hops : i.regOperands = a :: rest)
    (ha : 8 ≤ a.toNat) (s : State) : exec i s = .next (faultedWith s (.registerIndexFault a)) := by
  obtain ⟨hfault, -⟩ := registerOperandsAreCheckedFirst i s
  refine hfault a ?_
  rw [hops]
  exact List.find?_cons_of_pos (decide_eq_true ha)

/-- Settles O8: the next state of a completed LDI sets the one register and advances. -/
theorem ldiLoadsImmediate : Obligations.LdiLoadsImmediate := by
  intro a b s
  obtain ⟨-, -, hdecode, -⟩ := opcodeMapDecodes a b
  refine ⟨hdecode, fun r hr => ⟨_, exec_ldi s hr, ?_⟩, fun ha => exec_first_operand_fault rfl ha s⟩
  exact ⟨s.reg_setReg_same r b, rfl, fun q hq => s.reg_setReg_other r q b hq, fun _ => rfl, rfl, rfl⟩

/-- Settles O9: the next state of a completed PRN appends to the output port and advances; that no other instruction
writes the port is `exec_out_of_not_prn`. -/
theorem prnOutputsRegister : Obligations.PrnOutputsRegister := by
  intro a b s
  obtain ⟨-, -, -, hdecode, -⟩ := opcodeMapDecodes a b
  refine ⟨hdecode, fun r hr => ⟨_, exec_prn s hr, ?_⟩, fun ha => exec_first_operand_fault rfl ha s,
    fun i hi => exec_out_of_not_prn hi s⟩
  exact ⟨rfl, rfl, fun _ => rfl, fun _ => rfl, rfl⟩

end Sys2Proof.Machine
end

section
/-! Proofs of the statements about the arithmetic instructions (43_alu.md): ADD and MUL. -/

namespace Sys2Proof.Machine

/-- Behind a first register operand that names a register, a second one of 8 or more is the handler's fault
(40_fetch_execute.md R117). -/
theorem exec_second_operand_fault {i : Instr} {a b : Byte} {rest : List Byte} (hops : i.regOperands = a :: b :: rest)
    (ha : a.toNat < 8) (hb : 8 ≤ b.toNat) (s : State) :
    exec i s = .next (faultedWith s (.registerIndexFault b)) := by
  obtain ⟨hfault, -⟩ := registerOperandsAreCheckedFirst i s
  refine hfault b ?_
  rw [hops, List.find?_cons_of_neg (by simpa using ha)]
  exact List.find?_cons_of_pos (decide_eq_true hb)

/-- A register write and the sequential pc update leave every other register, Memory, the run state and the output port
as they were. -/
theorem setReg_advance_frame (s : State) (r : RegIdx) (v : Byte) (len : Nat) :
    ((s.setReg r v).advance len).pc = s.pc + len ∧
      (∀ q, q ≠ r → ((s.setReg r v).advance len).reg q = s.reg q) ∧ SameMemory s ((s.setReg r v).advance len) ∧
      ((s.setReg r v).advance len).run = s.run ∧ ((s.setReg r v).advance len).out = s.out :=
  ⟨rfl, fun q hq => s.reg_setReg_other r q v hq, fun _ => rfl, rfl, rfl⟩

/-- Settles O10: the next state of a completed ADD writes the byte sum to the first register and advances; the checks
fail in the order of the operands. -/
theorem addAddsModulo256 : Obligations.AddAddsModulo256 := by
  intro a b s
  obtain ⟨-, -, -, -, hdecode, -⟩ := opcodeMapDecodes a b
  refine ⟨hdecode, fun ra rb ha hb => ⟨_, exec_add s ha hb, ?_, setReg_advance_frame s ra _ 3⟩,
    fun ha => exec_first_operand_fault rfl ha s, fun ha hb => exec_second_operand_fault rfl ha hb s⟩
  rw [State.advance_reg, State.reg_setReg_same]
  exact BitVec.toNat_add (s.reg ra) (s.reg rb)

/-- Settles O11: the next state of a completed MUL writes the byte product to the first register and advances; the
checks fail in the order of the operands. -/
theorem mulMultipliesModulo256 : Obligations.MulMultipliesModulo256 := by
  intro a b s
  obtain ⟨-, -, -, -, -, hdecode, -⟩ := opcodeMapDecodes a b
  refine ⟨hdecode, fun ra rb ha hb => ⟨_, exec_mul s ha hb, ?_, setReg_advance_frame s ra _ 3⟩,
    fun ha => exec_first_operand_fault rfl ha s, fun ha hb => exec_second_operand_fault rfl ha hb s⟩
  rw [State.advance_reg, State.reg_setReg_same]
  exact BitVec.toNat_mul (s.reg ra) (s.reg rb)

end Sys2Proof.Machine
end

section
/-! Proofs of the statements about the stack instructions (44_stack.md): PUSH and POP. -/

namespace Sys2Proof.Machine

/-- Settles O12: the next state of a completed PUSH has the decremented SP, the register read behind the decrement in
the cell it points to, and the advanced pc. -/
theorem pushStoresBelowStackPointer : Obligations.PushStoresBelowStackPointer := by
  intro a b s
  obtain ⟨-, -, -, -, -, -, hdecode, -⟩ := opcodeMapDecodes a b
  refine ⟨hdecode, fun r hr => ⟨_, exec_push s hr, ?_⟩, fun ha => exec_first_operand_fault rfl ha s⟩
  have hsp : s.decSp.sp = s.pushAddr := s.reg_decSp_sp
  have hstored : Memory.read (Memory.write s.mem s.pushAddr.toNat (s.decSp.reg r)) s.pushAddr.toNat =
      if r = 7 then s.pushAddr else s.reg r := by
    rw [Memory.read_write_same, State.reg_decSp]
  exact ⟨hsp, (congrArg BitVec.toNat hsp).trans s.pushAddr_toNat, hstored,
    fun x hx => Memory.read_write_other hx .., rfl, fun q hq => s.reg_setReg_other 7 q _ hq, rfl, rfl⟩

/-- Settles O13: a completed POP writes the register, then increments whatever SP that write left: the old SP, or the
popped byte where the register is SP itself. -/
theorem popLoadsFromStackPointer : Obligations.PopLoadsFromStackPointer := by
  intro a b s
  obtain ⟨-, -, -, -, -, -, -, hdecode, -⟩ := opcodeMapDecodes a b
  refine ⟨hdecode, fun r hr => ⟨_, exec_pop s hr, fun h7 => ⟨?_, ?_⟩, ?_, rfl, fun q hqr hq7 => ?_, fun _ => rfl,
    rfl, rfl⟩, fun ha => exec_first_operand_fault rfl ha s⟩
  · exact (State.reg_setReg_other _ 7 r _ h7).trans (s.reg_setReg_same r _)
  · refine (State.incSp_sp_toNat _).trans ?_
    rw [State.sp_eq, s.reg_setReg_other r 7 _ h7.symm, State.sp_eq]
  · rintro rfl
    refine (State.incSp_sp_toNat _).trans ?_
    rw [State.sp_eq, State.reg_setReg_same, State.sp_eq]
  · exact (State.reg_setReg_other _ 7 q _ hq7).trans (s.reg_setReg_other r q _ hqr)

end Sys2Proof.Machine
end

section
/-! Proofs of the statements about the subroutine instructions (45_subroutine.md): CALL and RET. -/

namespace Sys2Proof.Machine

/-- A jump target that is a byte and leaves no room for three bytes faults at the next fetch, at address 256
(40_fetch_execute.md R112). -/
theorem step_of_byte_target {t : State} {v : Byte} (hpc : t.pc = v.toNat) (hrun : t.run = .running)
    (hlo : 254 ≤ t.pc) : step t = .next (faultedWith t (.memoryRangeFault 256)) := by
  have hbyte : t.pc ≤ 256 := hpc.trans_le v.isLt.le
  exact step_memoryRangeFault hrun hlo (max_eq_right hbyte).symm

/-- Settles O14: the next state of a completed CALL is a push of the return address and a jump to the register as read
behind the decrement of SP. -/
theorem callPushesReturnAddressAndJumps : Obligations.CallPushesReturnAddressAndJumps := by
  intro a b s
  obtain ⟨-, -, -, -, -, -, -, -, hdecode, -⟩ := opcodeMapDecodes a b
  refine ⟨hdecode, fun r hr hpc => ⟨_, exec_call s hr, ?_⟩, fun ha => exec_first_operand_fault rfl ha s⟩
  have hsp : s.decSp.sp = s.pushAddr := s.reg_decSp_sp
  have hstored : (Memory.read (Memory.write s.mem s.pushAddr.toNat s.returnAddr) s.pushAddr.toNat).toNat =
      s.pc + 2 := by
    rw [Memory.read_write_same, s.returnAddr_toNat hpc]
  have htarget : (s.decSp.reg r).toNat = (if r = 7 then s.pushAddr else s.reg r).toNat :=
    congrArg BitVec.toNat (s.reg_decSp r)
  exact ⟨hsp, (congrArg BitVec.toNat hsp).trans s.pushAddr_toNat, hstored,
    fun x hx => Memory.read_write_other hx .., htarget, fun q hq => s.reg_setReg_other 7 q _ hq, rfl, rfl,
    step_of_byte_target rfl⟩

/-- Settles O15: the next state of a completed RET is a pop into the pc. -/
theorem retPopsProgramCounter : Obligations.RetPopsProgramCounter := by
  intro a b s
  obtain ⟨-, -, -, -, -, -, -, -, -, hdecode, -⟩ := opcodeMapDecodes a b
  exact ⟨hdecode, _, exec_ret s, rfl, s.incSp_sp_toNat, fun q hq => s.reg_setReg_other 7 q _ hq, fun _ => rfl, rfl,
    rfl, step_of_byte_target rfl⟩

end Sys2Proof.Machine
end

section
/-! Proof of the statement about process entry (70_reset_and_hazards.md R237). -/

namespace Sys2Proof.Machine

/-- With one argument every failure of process entry is the loader's (70_reset_and_hazards.md R238). -/
theorem processEntry_singleton_ne_usageError (path : String) (readFile : String → Option (List Char)) :
    processEntry [path] readFile ≠ .error .usageError := by
  cases hread : readFile path with
  | none => simp [processEntry, hread]
  | some text =>
    cases hload : loadLines (splitLines text) 0 State.reset.mem with
    | error e => simp [processEntry, hread, hload]
    | ok m => simp [processEntry, hread, hload]

/-- The arguments alone decide whether process entry answers a usage error. -/
theorem processEntry_eq_usageError_iff (args : List String) (readFile : String → Option (List Char)) :
    processEntry args readFile = .error .usageError ↔ args.length ≠ 1 := by
  match args with
  | [] => exact iff_of_true rfl (by simp)
  | [path] => exact iff_of_false (processEntry_singleton_ne_usageError path readFile) (by simp)
  | _ :: _ :: _ => exact iff_of_true rfl (by simp)

/-- Settles O5: both clauses are the one equivalence. -/
theorem processEntryNeedsOneArgument : Obligations.ProcessEntryNeedsOneArgument := fun args readFile =>
  have husage := processEntry_eq_usageError_iff args readFile
  ⟨fun hne => ⟨.usageError, husage.mpr hne, rfl, rfl⟩, fun hone herror => husage.mp herror hone⟩

end Sys2Proof.Machine
end

section
/-! Proofs of the round trips of the encoding (30_encoding.md): decode of encode, encode of decode, and the step of an
encoded instruction. -/

namespace Sys2Proof

theorem Instr.length_eq (i : Instr) : i.length = i.operandBytes.length + 1 := rfl

theorem Instr.operandBytes_length_le (i : Instr) : i.operandBytes.length ≤ 2 := by
  cases i <;> simp [Instr.operandBytes]

end Sys2Proof

namespace Sys2Proof.Machine

/-- The opcode byte with an instruction's operand bytes at the places it uses, and any bytes at the others, decodes to
the instruction. -/
theorem decode_opcode_of_operands {i : Instr} {a b : Byte}
    (ha : ∀ h : 0 < i.operandBytes.length, a = i.operandBytes[0])
    (hb : ∀ h : 1 < i.operandBytes.length, b = i.operandBytes[1]) : decode i.opcode a b = .ok i := by
  cases i with
  | hlt => rfl
  | ldi x y => cases ha Nat.two_pos; cases hb Nat.one_lt_two; rfl
  | prn x => cases ha Nat.one_pos; rfl
  | add x y => cases ha Nat.two_pos; cases hb Nat.one_lt_two; rfl
  | mul x y => cases ha Nat.two_pos; cases hb Nat.one_lt_two; rfl
  | push x => cases ha Nat.one_pos; rfl
  | pop x => cases ha Nat.one_pos; rfl
  | call x => cases ha Nat.one_pos; rfl
  | ret => rfl

/-- Settles O32: the bytes the decoder looks at are the encoding's own wherever the instruction uses them, and as many
bytes are dropped as the encoding has. -/
theorem decodeOfEncodeIsIdentity : Obligations.DecodeOfEncodeIsIdentity := by
  intro i rest
  have hoperand : ∀ k (h : k < i.operandBytes.length), (i.operandBytes ++ rest).getD k 0#8 = i.operandBytes[k] := by
    intro k h
    rw [List.getD_append _ _ _ _ h, List.getD_eq_getElem _ _ h]
  have hdecode := decode_opcode_of_operands (hoperand 0) (hoperand 1)
  simp only [encode, List.cons_append, decodeBytes, hdecode]
  simp

/-- The bytes a decoder accepts start with the encoding of its answer. -/
theorem encode_of_decode {op a b : Byte} {i : Instr} (h : decode op a b = .ok i) :
    encode i = [op, a, b].take i.length := by
  rw [decode_ok_iff] at h
  rcases h with ⟨rfl, rfl⟩ | ⟨rfl, rfl⟩ | ⟨rfl, rfl⟩ | ⟨rfl, rfl⟩ | ⟨rfl, rfl⟩ | ⟨rfl, rfl⟩ | ⟨rfl, rfl⟩ | ⟨rfl, rfl⟩ |
    ⟨rfl, rfl⟩ <;> rfl

/-- Settles O33: the encoding is read off the opcode map; it shows the operand bytes to be a and b where the instruction
uses them, and those are all that the decoder needs. -/
theorem encodeOfDecodeIsPrefix : Obligations.EncodeOfDecodeIsPrefix := by
  intro op a b i h
  have hencode := encode_of_decode h
  refine ⟨hencode, fun a' b' ha hb => ?_⟩
  have hoperands : i.operandBytes = [a, b].take i.operandBytes.length := (List.cons.inj hencode).2
  rw [Instr.length_eq] at ha hb
  rw [← decode_opcode h]
  refine decode_opcode_of_operands (fun h0 => ?_) fun h1 => ?_
  · rw [ha (by omega), List.getElem_of_eq hoperands, List.getElem_take]
    rfl
  · rw [hb (by omega), List.getElem_of_eq hoperands, List.getElem_take]
    rfl

/-- Settles O35: the fetched bytes are the encoding's wherever the instruction uses them. -/
theorem stepRunsEncodedInstruction : Obligations.StepRunsEncodedInstruction := by
  intro s i hrun hpc hmem
  have hop : Memory.read s.mem s.pc = i.opcode := hmem 0 (Nat.succ_pos _)
  have hoperand : ∀ k (h : k < i.operandBytes.length), Memory.read s.mem (s.pc + (k + 1)) = i.operandBytes[k] :=
    fun k h => hmem (k + 1) (Nat.succ_lt_succ h)
  refine step_eq_exec hrun hpc ?_
  rw [hop]
  exact decode_opcode_of_operands (hoperand 0) (hoperand 1)

/-- Settles O31: the decoder evaluated on each word. -/
theorem sampleWordsDecode : Obligations.SampleWordsDecode :=
  ⟨rfl, rfl, rfl, rfl, rfl, rfl, rfl, rfl⟩

end Sys2Proof.Machine
end

section
/-! The program counter after a handler (40_fetch_execute.md R116), the legal states that every step keeps, and what
follows for runs (10_state.md R28, R30; 60_exceptions.md R203, R205). -/

namespace Sys2Proof.Machine

/-! ## The program counter -/

/-- An ill-formed instruction has a register operand of 8 or more, and its handler takes the fault of the first. -/
theorem exec_of_not_wf {i : Instr} (h : i.wf = false) (s : State) :
    ∃ x ∈ i.regOperands, 8 ≤ x.toNat ∧ exec i s = .next (s.takeFault (.registerIndexFault x)) := by
  cases hf : i.regOperands.find? (fun y => decide (8 ≤ y.toNat)) with
  | some x =>
    exact ⟨x, List.mem_of_find?_eq_some hf, by simpa using List.find?_some hf, exec_registerIndexFault hf s⟩
  | none => exact absurd (i.wf_iff_find?_eq_none.2 hf) (by simp [h])

/-- Settles O19: a fault leaves pc; otherwise it is read off the handler's next state. -/
theorem handlersUpdateProgramCounter : Obligations.HandlersUpdateProgramCounter := by
  intro i s
  cases hwf : i.wf with
  | false =>
    obtain ⟨x, hmem, hx, hexec⟩ := exec_of_not_wf hwf s
    refine ⟨_, hexec, fun _ => rfl, ?_, ?_, nofun⟩
    · rintro a r rfl ha
      obtain rfl : x = a := by simpa [Instr.regOperands] using hmem
      omega
    · rintro rfl
      cases hmem
  | true =>
    cases i, hwf using Instr.wf_cases with
    | hlt => exact ⟨_, exec_hlt s, nofun, nofun, nofun, fun _ _ _ => rfl⟩
    | ldi a b r ha => exact ⟨_, exec_ldi s ha, nofun, nofun, nofun, fun _ _ _ => rfl⟩
    | prn a r ha => exact ⟨_, exec_prn s ha, nofun, nofun, nofun, fun _ _ _ => rfl⟩
    | add a b ra rb ha hb => exact ⟨_, exec_add s ha hb, nofun, nofun, nofun, fun _ _ _ => rfl⟩
    | mul a b ra rb ha hb => exact ⟨_, exec_mul s ha hb, nofun, nofun, nofun, fun _ _ _ => rfl⟩
    | push a r ha => exact ⟨_, exec_push s ha, nofun, nofun, nofun, fun _ _ _ => rfl⟩
    | pop a r ha => exact ⟨_, exec_pop s ha, nofun, nofun, nofun, fun _ _ _ => rfl⟩
    | call a r ha =>
      refine ⟨_, exec_call s ha, nofun, ?_, nofun, fun _ hcall => absurd rfl (hcall a)⟩
      rintro x q ⟨⟩ hq
      obtain rfl : q = r := Fin.ext (hq.symm.trans ha)
      exact congrArg BitVec.toNat (s.reg_decSp q)
    | ret => exact ⟨_, exec_ret s, nofun, nofun, fun _ => rfl, fun _ _ hret => absurd rfl hret⟩

/-! ## Legal states -/

/-- A handler that runs where all three bytes were fetched leaves pc at most 256, the address behind the last cell:
the sequential update adds at most 3, and a jump target is a byte. -/
theorem exec_pc_le {i : Instr} {s t : State} (hpc : s.pc ≤ 253) (hexec : exec i s = .next t) : t.pc ≤ 256 := by
  obtain ⟨u, hu, hfault, hcall, hret, hseq⟩ := handlersUpdateProgramCounter i s
  obtain rfl : t = u := Host.Outcome.next.inj (hexec.symm.trans hu)
  cases hwf : i.wf with
  | false => exact (hfault hwf).trans_le (by omega)
  | true =>
    by_cases hc : ∃ a, i = .call a
    · obtain ⟨a, rfl⟩ := hc
      obtain ⟨r, hr⟩ := exists_reg_of_namesRegister (a := a) (by simpa [Instr.wf, Instr.regOperands] using hwf)
      exact (hcall a r rfl hr).trans_le (BitVec.isLt _).le
    · by_cases hr : i = .ret
      · exact (hret hr).trans_le (BitVec.isLt _).le
      · have hlen := i.operandBytes_length_le
        have hnext := hseq hwf (not_exists.1 hc) hr
        omega

/-- A handler keeps the canonical form of Memory: it stores at most one byte, at an address that is a byte. -/
theorem exec_mem_wf {i : Instr} {s t : State} (hmem : Memory.wf s.mem = true) (hexec : exec i s = .next t) :
    Memory.wf t.mem = true := by
  obtain ⟨u, w, -, hu, -⟩ := exec_memory_access i s s.mem fun _ => rfl
  obtain rfl : t = u.setMem (Memory.writeOpt s.mem s.pushAddr.toNat w) := Host.Outcome.next.inj (hexec.symm.trans hu)
  cases w with
  | none => exact hmem
  | some v => exact Memory.wf_write v (BitVec.isLt _) hmem

/-- Taking a fatal condition that can arise at the pc keeps a legal state legal. -/
theorem State.Inv.takeFault {s : State} {k : FaultKind} (hs : s.Inv) (hk : k.ArisesAt s.pc) : (s.takeFault k).Inv where
  mem_wf := hs.mem_wf
  pc_le := hs.pc_le
  fault_arises f hf := by
    obtain rfl : ⟨k, s.pc⟩ = f := RunState.faulted.inj hf
    exact ⟨rfl, hk⟩

/-- A well-formed instruction that runs on a running core ends in no fault. -/
theorem exec_not_faulted_of_wf {i : Instr} (hwf : i.wf = true) {s : State} (hrun : s.run = .running) :
    ∃ t, exec i s = .next t ∧ ∀ f, t.run ≠ .faulted f := by
  obtain ⟨t, ht, htrun, -⟩ := exec_run_out_of_wf i hwf s
  refine ⟨t, ht, fun f hf => ?_⟩
  rw [hf, hrun] at htrun
  split at htrun <;> cases htrun

/-- A handler that runs where all three bytes were fetched keeps a running legal state legal. -/
theorem exec_inv {i : Instr} {s t : State} (hs : s.Inv) (hrun : s.run = .running) (hpc : s.pc ≤ 253)
    (hexec : exec i s = .next t) : t.Inv := by
  cases hwf : i.wf with
  | false =>
    obtain ⟨x, -, hx, hfault⟩ := exec_of_not_wf hwf s
    obtain rfl : t = s.takeFault (.registerIndexFault x) := Host.Outcome.next.inj (hexec.symm.trans hfault)
    exact hs.takeFault ⟨hpc, hx⟩
  | true =>
    obtain ⟨u, hu, hnofault⟩ := exec_not_faulted_of_wf hwf hrun
    obtain rfl : t = u := Host.Outcome.next.inj (hexec.symm.trans hu)
    exact ⟨exec_mem_wf hs.mem_wf hexec, exec_pc_le hpc hexec, fun f hf => absurd hf (hnofault f)⟩

/-- Only a running core has a step. -/
theorem running_of_step_next {s t : State} (hstep : step s = .next t) : s.run = .running := by
  cases hrun : s.run with
  | running => rfl
  | halted => exact absurd hstep (endedCoreHasNoStep s (.inl hrun) t)
  | faulted f => exact absurd hstep (endedCoreHasNoStep s (.inr ⟨f, hrun⟩) t)

/-- Settles O46: the step takes the fetch's fault, takes the lookup's fault, or runs the decoded instruction. -/
theorem stepKeepsLegalState : Obligations.StepKeepsLegalState := by
  intro s t hs hstep
  have hrun := running_of_step_next hstep
  by_cases hpc : s.pc ≤ 253
  · by_cases hop : Memory.read s.mem s.pc ∈ opcodeBytes
    · obtain ⟨i, hi⟩ := exists_decode_of_mem_opcodeBytes hop _ _
      exact exec_inv hs hrun hpc ((step_eq_exec hrun hpc hi).symm.trans hstep)
    · obtain rfl := Host.Outcome.next.inj (hstep.symm.trans (step_unknownOpcode hrun hpc hop))
      exact hs.takeFault ⟨hpc, hop⟩
  · obtain rfl := Host.Outcome.next.inj (hstep.symm.trans (step_fetchFault hrun (by omega)))
    rw [if_pos hs.pc_le]
    exact hs.takeFault ⟨by omega, rfl⟩

/-- Settles O45: storing an image that fits keeps Memory canonical, and the core is Running at pc 0. -/
theorem launchIsLegal : Obligations.LaunchIsLegal := by
  intro image hfits
  exact ⟨storeImage_wf image 0 _ (by omega) State.reset_mem_wf, Nat.zero_le 256, nofun⟩

/-- Settles O1: `launch` stores nothing for the empty image. -/
theorem resetStateIsConstruction : Obligations.ResetStateIsConstruction := by
  obtain ⟨-, -, hregs, hsp, hpc, hrun, hout⟩ := launchStateHoldsImage [] (Nat.zero_le 256)
  exact ⟨rfl, fun _ => rfl, hregs, hsp, hpc, hrun, hout⟩

/-- Settles O44: the state after reset is the launch state of the empty image. -/
theorem resetIsLegal : Obligations.ResetIsLegal := launchIsLegal [] (Nat.zero_le 256)

/-! ## Runs -/

theorem runFor_of_no_step {s : State} (h : ∀ t, step s ≠ .next t) (n : Nat) : runFor n s = s := by
  cases n with
  | zero => rfl
  | succ n =>
    cases hstep : step s with
    | next t => exact absurd hstep (h t)
    | fault r => simp only [runFor, hstep]
    | refused r => simp only [runFor, hstep]

theorem runFor_succ_of_step {s t : State} (h : step s = .next t) (n : Nat) : runFor (n + 1) s = runFor n t := by
  simp only [runFor, h]

/-- Every run from a legal state stays in legal states. -/
theorem runFor_inv {s : State} (hs : s.Inv) (n : Nat) : (runFor n s).Inv := by
  induction n generalizing s with
  | zero => exact hs
  | succ n ih =>
    by_cases hstep : ∃ t, step s = .next t
    · obtain ⟨t, ht⟩ := hstep
      rw [runFor_succ_of_step ht]
      exact ih (stepKeepsLegalState s t hs ht)
    · rwa [runFor_of_no_step (not_exists.1 hstep)]

theorem FaultKind.ArisesAt.reachable {k : FaultKind} {pc : Nat} (h : k.ArisesAt pc) :
    k ≠ .aluDivideByZero ∧ (∀ name, k ≠ .aluUnsupportedOperation name) ∧
      ∀ addr, k = .memoryRangeFault addr → addr = 256 := by
  refine ⟨?_, ?_, ?_⟩
  · rintro rfl
    exact h
  · rintro name rfl
    exact h
  · rintro addr rfl
    exact h.2

/-- Settles O47: the run stays in legal states, whose fault records name only conditions that can arise. -/
theorem runsRecordOnlyReachableFaults : Obligations.RunsRecordOnlyReachableFaults := by
  intro image n f hfits hf
  obtain ⟨hpc, harises⟩ := (runFor_inv (launchIsLegal image hfits) n).fault_arises f hf
  exact ⟨hpc, harises.reachable⟩

/-- Fuel can be spent in two parts. -/
theorem runFor_add (n k : Nat) (s : State) : runFor (n + k) s = runFor k (runFor n s) := by
  induction n generalizing s with
  | zero => rw [Nat.zero_add]; rfl
  | succ n ih =>
    by_cases hstep : ∃ t, step s = .next t
    · obtain ⟨t, ht⟩ := hstep
      rw [Nat.succ_add, runFor_succ_of_step ht, runFor_succ_of_step ht, ih]
    · have hstay := runFor_of_no_step (not_exists.1 hstep)
      rw [hstay, hstay, hstay]

theorem no_step_of_ended {s : State} (h : s.ended = true) (t : State) : step s ≠ .next t := by
  intro hstep
  simp [State.ended, running_of_step_next hstep] at h

theorem runResult_isSome_iff (n : Nat) (s : State) : (runResult n s).isSome = true ↔ (runFor n s).ended = true := by
  cases hrun : (runFor n s).run <;> simp [runResult, State.exitStatus, State.ended, hrun]

/-- Settles O48: further fuel is spent from a core that has no step. -/
theorem endedRunIsStable : Obligations.EndedRunIsStable := by
  refine fun s n k => ⟨fun hended => ?_, runResult_isSome_iff n s⟩
  rw [runFor_add, runFor_of_no_step (no_step_of_ended hended)]

end Sys2Proof.Machine
end

section
/-! Proofs of the statements about the loader (70_reset_and_hazards.md R236, R238): the text of a byte, then the file. -/

namespace Sys2Proof.Machine

/-! ## The text of a byte -/

/-- One binary digit. -/
def bitChar (b : Bool) : Char := if b then '1' else '0'

/-- The low `n` bits of a byte as binary digits, the highest of them first. -/
def lowBitsText (v : Byte) (n : Nat) : List Char := (List.range n).map fun k => bitChar (v.getLsbD (n - 1 - k))

theorem byteText_eq (v : Byte) : byteText v = lowBitsText v 8 := rfl

theorem lowBitsText_succ (v : Byte) (n : Nat) :
    lowBitsText v (n + 1) = bitChar (v.getLsbD n) :: lowBitsText v n := by
  simp [lowBitsText, List.range_succ_eq_map, Nat.sub_sub, Nat.add_comm]

theorem binaryValue_bitChar_cons (n : Nat) (b : Bool) (t : List Char) :
    binaryValue n (bitChar b :: t) = binaryValue (2 * n + b.toNat) t := by
  cases b <;> rfl

/-- Reading the low bits behind `acc` shifts `acc` up and adds them. -/
theorem binaryValue_lowBitsText (v : Byte) (n acc : Nat) :
    binaryValue acc (lowBitsText v n) = some (acc * 2 ^ n + v.toNat % 2 ^ n) := by
  induction n generalizing acc with
  | zero => simp [lowBitsText, binaryValue, Nat.mod_one]
  | succ n ih =>
    rw [lowBitsText_succ, binaryValue_bitChar_cons, ih, Nat.mod_pow_succ, ← BitVec.testBit_toNat,
      Nat.toNat_testBit]
    congr 1
    ring

theorem binaryValue_byteText (v : Byte) : binaryValue 0 (byteText v) = some v.toNat := by
  rw [byteText_eq, binaryValue_lowBitsText, Nat.zero_mul, Nat.zero_add, Nat.mod_eq_of_lt v.isLt]

theorem byteText_length (v : Byte) : (byteText v).length = 8 := by simp [byteText]

/-- A text with a binary value starts with a binary digit, which goes into the value. -/
theorem binaryValue_cons_eq_some {n m : Nat} {c : Char} {t : List Char} (h : binaryValue n (c :: t) = some m) :
    ∃ b, c = bitChar b ∧ binaryValue (2 * n + b.toNat) t = some m := by
  unfold binaryValue at h
  split at h
  · next h0 => exact ⟨false, h0, h⟩
  · split at h
    · next h1 => exact ⟨true, h1, h⟩
    · cases h

/-- Texts of one length are told apart by their binary values. -/
theorem binaryValue_inj {n n' m : Nat} {t t' : List Char} (hlen : t.length = t'.length)
    (h : binaryValue n t = some m) (h' : binaryValue n' t' = some m) : n = n' ∧ t = t' := by
  induction t generalizing n n' t' with
  | nil =>
    obtain rfl : t' = [] := List.length_eq_zero_iff.1 hlen.symm
    exact ⟨Option.some.inj (h.trans h'.symm), rfl⟩
  | cons c t ih =>
    obtain ⟨c', t', rfl⟩ := List.exists_cons_of_length_eq_add_one hlen.symm
    obtain ⟨b, rfl, hb⟩ := binaryValue_cons_eq_some h
    obtain ⟨b', rfl, hb'⟩ := binaryValue_cons_eq_some h'
    obtain ⟨hacc, rfl⟩ := ih (Nat.succ.inj hlen) hb hb'
    have hbit := b.toNat_lt
    have hbit' := b'.toNat_lt
    obtain rfl : b = b' := Function.LeftInverse.injective Bool.ofNat_toNat (by omega)
    exact ⟨by omega, rfl⟩

theorem binaryValue_lt {n m : Nat} {t : List Char} (h : binaryValue n t = some m) : m < (n + 1) * 2 ^ t.length := by
  induction t generalizing n with
  | nil => simp_all [binaryValue]
  | cons c t ih =>
    obtain ⟨b, -, hb⟩ := binaryValue_cons_eq_some h
    have hbit := b.toNat_lt
    calc m < (2 * n + b.toNat + 1) * 2 ^ t.length := ih hb
      _ ≤ ((n + 1) * 2) * 2 ^ t.length := Nat.mul_le_mul_right _ (by omega)
      _ = (n + 1) * 2 ^ (t.length + 1) := by ring

/-- A token denotes a byte exactly when it is the byte's text of eight binary digits. -/
theorem tokenByte_eq_some_iff (t : List Char) (v : Byte) : tokenByte t = some v ↔ t = byteText v := by
  constructor
  · intro h
    unfold tokenByte at h
    split at h
    · next hlen =>
      obtain ⟨m, hm, rfl⟩ := Option.map_eq_some_iff.1 h
      have hlt := binaryValue_lt hm
      rw [hlen] at hlt
      have hval := binaryValue_byteText (BitVec.ofNat 8 m)
      rw [BitVec.toNat_ofNat, Nat.mod_eq_of_lt (by omega)] at hval
      exact (binaryValue_inj (hlen.trans (byteText_length _).symm) hm hval).2
    · cases h
  · rintro rfl
    simp [tokenByte, byteText_length, binaryValue_byteText]

/-! ## The file -/

theorem fileTokens_cons_blank {line : List Char} (h : strip (beforeComment line) = []) (lines : List (List Char)) :
    fileTokens (line :: lines) = fileTokens lines := by
  simp [fileTokens, h]

theorem fileTokens_cons_token {line : List Char} (h : strip (beforeComment line) ≠ []) (lines : List (List Char)) :
    fileTokens (line :: lines) = strip (beforeComment line) :: fileTokens lines := by
  simp [fileTokens, h]

theorem loadLines_cons_blank {line : List Char} (h : strip (beforeComment line) = []) (lines : List (List Char))
    (addr : Nat) (m : Memory) : loadLines (line :: lines) addr m = loadLines lines addr m := by
  rw [loadLines, if_pos h]

theorem loadLines_cons_malformed {line : List Char} (h : strip (beforeComment line) ≠ [])
    (hbad : tokenByte (strip (beforeComment line)) = none) (lines : List (List Char)) (addr : Nat) (m : Memory) :
    loadLines (line :: lines) addr m = .error .malformedToken := by
  rw [loadLines, if_neg h, hbad]

theorem loadLines_cons_byte {line : List Char} {v : Byte} (h : strip (beforeComment line) ≠ [])
    (hv : tokenByte (strip (beforeComment line)) = some v) (lines : List (List Char)) (addr : Nat) (m : Memory) :
    loadLines (line :: lines) addr m =
      if 256 ≤ addr then .error .imageTooLong else loadLines lines (addr + 1) (Memory.write m addr v) := by
  rw [loadLines, if_neg h, hv]

/-- From `addr` on the loader stores the image whose texts are the tokens, where it fits. -/
theorem loadLines_eq_storeImage {lines : List (List Char)} {image : List Byte} {addr : Nat}
    (htokens : fileTokens lines = image.map byteText) (hfits : addr + image.length ≤ 256) (m : Memory) :
    loadLines lines addr m = .ok (storeImage image addr m) := by
  induction lines generalizing image addr m with
  | nil =>
    obtain rfl : image = [] := List.map_eq_nil_iff.1 htokens.symm
    rfl
  | cons line lines ih =>
    by_cases hblank : strip (beforeComment line) = []
    · rw [fileTokens_cons_blank hblank] at htokens
      rw [loadLines_cons_blank hblank, ih htokens hfits]
    · rw [fileTokens_cons_token hblank] at htokens
      obtain ⟨v, image, rfl, hv, htokens⟩ := List.map_eq_cons_iff.1 htokens.symm
      rw [List.length_cons] at hfits
      rw [loadLines_cons_byte hblank ((tokenByte_eq_some_iff ..).2 hv.symm), if_neg (by omega),
        ih htokens.symm (by omega)]
      rfl

/-- Settles O3: the loader from address 0 on. -/
theorem loaderBuildsLaunchMemory : Obligations.LoaderBuildsLaunchMemory := by
  intro lines image htokens hfits
  exact loadLines_eq_storeImage htokens (by omega) State.reset.mem

/-- What loads has the text of a byte in every token, and no more tokens than cells from `addr` on. -/
theorem fileTokens_of_loadLines_ok {lines : List (List Char)} {addr : Nat} {m m' : Memory} (haddr : addr ≤ 256)
    (h : loadLines lines addr m = .ok m') :
    (∀ t ∈ fileTokens lines, ∃ v, t = byteText v) ∧ addr + (fileTokens lines).length ≤ 256 := by
  induction lines generalizing addr m with
  | nil => exact ⟨nofun, haddr⟩
  | cons line lines ih =>
    by_cases hblank : strip (beforeComment line) = []
    · rw [loadLines_cons_blank hblank] at h
      rw [fileTokens_cons_blank hblank]
      exact ih haddr h
    · cases hv : tokenByte (strip (beforeComment line)) with
      | none =>
        rw [loadLines_cons_malformed hblank hv] at h
        cases h
      | some v =>
        rw [loadLines_cons_byte hblank hv] at h
        split at h
        · cases h
        · obtain ⟨htexts, hlen⟩ := ih (by omega) h
          rw [fileTokens_cons_token hblank, List.forall_mem_cons, List.length_cons]
          exact ⟨⟨⟨v, (tokenByte_eq_some_iff ..).1 hv⟩, htexts⟩, by omega⟩

/-- Settles O4: a file that loads has neither fault. -/
theorem loaderRejectsBadFiles : Obligations.LoaderRejectsBadFiles := by
  intro lines m hbad
  cases hload : loadLines lines 0 m with
  | error e => exact ⟨e, rfl⟩
  | ok m' =>
    obtain ⟨htexts, hlen⟩ := fileTokens_of_loadLines_ok (Nat.zero_le 256) hload
    obtain ⟨t, ht, hno⟩ | hlong := hbad
    · obtain ⟨v, hv⟩ := htexts t ht
      exact absurd hv (hno v)
    · omega

end Sys2Proof.Machine
end

section
/-! Proofs of the statements about Memory (20_memory.md): read after write, the range check, the one canonical form, and
the coherence of fetch and store. -/

namespace Sys2Proof.Machine

/-! ## The memory interface -/

theorem State.memWrite_ok (s : State) {addr : Nat} (h : addr < 256) (v : Byte) :
    s.memWrite addr v = .ok (s.setMem (Memory.write s.mem addr v)) := if_pos h

theorem State.memWrite_error (s : State) {addr : Nat} (h : 256 ≤ addr) (v : Byte) :
    s.memWrite addr v = .error (.memoryRangeFault addr) := if_neg h.not_gt

/-- Settles O26: the range check of a read is the same before and after, and below 256 it is read after write. -/
theorem readReturnsLatestWrite : Obligations.ReadReturnsLatestWrite := by
  intro s t a x v hwrite
  have ha : a < 256 := by
    by_contra hge
    rw [s.memWrite_error (Nat.le_of_not_lt hge)] at hwrite
    cases hwrite
  obtain rfl := Except.ok.inj ((s.memWrite_ok ha v).symm.trans hwrite)
  by_cases hx : x = a
  · subst hx
    rw [State.memRead_ok _ ha, if_pos rfl, State.setMem_mem, Memory.read_write_same]
  · simp only [State.memRead, State.setMem_mem, Memory.read_write_other hx, if_neg hx]

/-- Settles O25: the range check decides both primitives; a register byte always passes it. -/
theorem memoryPrimitivesCheckRange : Obligations.MemoryPrimitivesCheckRange := by
  intro s addr v
  refine ⟨fun h => ⟨s.memRead_error h, s.memWrite_error h v⟩, fun h => ⟨s.memRead_ok h, _, s.memWrite_ok h v, ?_⟩,
    fun r => s.memRead_byte (s.reg r)⟩
  have hread := readReturnsLatestWrite s _ addr addr v (s.memWrite_ok h v)
  rw [if_pos rfl] at hread
  exact ⟨hread, fun x hx => Memory.read_write_other hx s.mem v, rfl, rfl, rfl, rfl⟩

/-! ## The canonical form -/

/-- The first cell a canonical memory lists does not read 0, so a canonical memory that reads alike lists something at
or below it. -/
theorem Memory.not_wfFrom_succ_of_read_eq {lo a : Nat} {v : Byte} {m n : Memory}
    (hm : Memory.wfFrom lo ((a, v) :: m) = true)
    (hread : Memory.read ((a, v) :: m) a = Memory.read n a) : Memory.wfFrom (a + 1) n ≠ true := by
  intro hn
  obtain ⟨-, -, hv, -⟩ := (Memory.wfFrom_cons ..).1 hm
  rw [Memory.read_cons, if_pos rfl, Memory.read_below hn (Nat.lt_succ_self a)] at hread
  exact hv hread

/-- Canonical memories that read alike are equal: their first cells have one address and one byte, and behind it they
read alike again. -/
theorem Memory.eq_of_read_eq {lo lo' : Nat} {m n : Memory} (hm : Memory.wfFrom lo m = true)
    (hn : Memory.wfFrom lo' n = true) (hread : ∀ x, Memory.read m x = Memory.read n x) : m = n := by
  induction m generalizing lo lo' n with
  | nil =>
    cases n with
    | nil => rfl
    | cons c n => exact absurd rfl (Memory.not_wfFrom_succ_of_read_eq hn (hread c.1).symm)
  | cons c m ih =>
    obtain ⟨a, v⟩ := c
    cases n with
    | nil => exact absurd rfl (Memory.not_wfFrom_succ_of_read_eq hm (hread a))
    | cons d n =>
      obtain ⟨b, w⟩ := d
      obtain ⟨-, ha, hv, hm'⟩ := (Memory.wfFrom_cons ..).1 hm
      obtain ⟨-, hb, hw, hn'⟩ := (Memory.wfFrom_cons ..).1 hn
      have hba : ¬ a < b := fun hlt => Memory.not_wfFrom_succ_of_read_eq hm (hread a)
        ((Memory.wfFrom_cons ..).2 ⟨hlt, hb, hw, hn'⟩)
      have hab : ¬ b < a := fun hlt => Memory.not_wfFrom_succ_of_read_eq hn (hread b).symm
        ((Memory.wfFrom_cons ..).2 ⟨hlt, ha, hv, hm'⟩)
      obtain rfl : a = b := by omega
      obtain rfl : v = w := by simpa [Memory.read_cons] using hread a
      congr 1
      refine ih hm' hn' fun x => ?_
      by_cases hx : x = a
      · subst hx
        rw [Memory.read_below hm' (Nat.lt_succ_self x), Memory.read_below hn' (Nat.lt_succ_self x)]
      · have hrest := hread x
        rwa [Memory.read_cons, Memory.read_cons, if_neg hx, if_neg hx] at hrest

/-- Settles O27: `Memory.eq_of_read_eq` from address 0. -/
theorem canonicalMemoryIsUnique : Obligations.CanonicalMemoryIsUnique := fun _ _ hm hn hread =>
  Memory.eq_of_read_eq hm hn hread

/-! ## Fetch behind a store (20_memory.md R68) -/

/-- A fetch that finds three bytes answers the cell at pc as its opcode. -/
theorem State.exists_fetch_eq {t : State} {v : Byte} (hpc : t.pc ≤ 253) (hv : Memory.read t.mem t.pc = v) :
    ∃ a b, t.fetch = .ok (v, a, b) := hv ▸ ⟨_, _, t.fetch_ok hpc⟩

/-- Settles O29: the opcode of the next fetch is the cell at the new pc, which is the pushed cell. -/
theorem fetchSeesStoreOfPreviousStep : Obligations.FetchSeesStoreOfPreviousStep := by
  refine fun s r hrun hpc hr => ⟨fun hop haddr hnext => ?_, fun hop htarget hnext => ?_⟩
  · have hread : Memory.read (Memory.write s.mem s.pushAddr.toNat (s.decSp.reg r)) (s.pc + 2) =
        if r = 7 then s.pushAddr else s.reg r := by
      rw [← haddr, Memory.read_write_same, State.reg_decSp]
    obtain ⟨a, b, hfetch⟩ := State.exists_fetch_eq
      (t := (s.decSp.setMem (Memory.write s.mem s.pushAddr.toNat (s.decSp.reg r))).advance 2) hnext hread
    exact ⟨_, a, b, step_push hrun hpc hr hop, hfetch⟩
  · rw [← State.reg_decSp] at htarget
    have hread : Memory.read (Memory.write s.mem s.pushAddr.toNat s.returnAddr) (s.decSp.reg r).toNat =
        s.returnAddr := by
      rw [htarget, Memory.read_write_same]
    obtain ⟨a, b, hfetch⟩ := State.exists_fetch_eq
      (t := (s.decSp.setMem (Memory.write s.mem s.pushAddr.toNat s.returnAddr)).setPc (s.decSp.reg r).toNat)
      ((congrArg BitVec.toNat htarget).trans_le hnext) hread
    exact ⟨_, s.returnAddr, a, b, step_call hrun hpc hr hop, hfetch, s.returnAddr_toNat hpc⟩

end Sys2Proof.Machine
end

section
/-! Proofs of the statements about pairs of instructions and about operand 7: PUSH with POP (44_stack.md R172), CALL with
RET (45_subroutine.md R184), register 7 as SP (10_state.md R22). -/

namespace Sys2Proof.Machine

/-- Raising SP gives back the registers from before it was lowered. -/
theorem State.reg_incSp_of_reg_decSp {s t : State} (h : ∀ q, t.reg q = s.decSp.reg q) (q : RegIdx) :
    t.incSp.reg q = s.reg q := by
  rw [State.reg_incSp_eq, h, h, State.reg_decSp_sp, State.pushAddr_eq, BitVec.sub_add_cancel, State.reg_decSp]
  split
  · next h7 => rw [h7]
  · rfl

/-- Settles O23: POP reads back the byte that PUSH stored, which is what its register holds already, so all that POP does
to the registers is to raise SP again. -/
theorem pushThenPopRestores : Obligations.PushThenPopRestores := by
  intro a r s ha
  have hregs : ∀ q, (((s.decSp.setMem (Memory.write s.mem s.pushAddr.toNat (s.decSp.reg r))).advance 2).setReg r
      (Memory.read (Memory.write s.mem s.pushAddr.toNat (s.decSp.reg r)) (s.decSp.reg 7).toNat)).reg q =
        s.decSp.reg q := by
    intro q
    rw [State.reg_setReg, State.reg_decSp_sp, Memory.read_write_same]
    split
    · next hq => rw [hq]
    · rfl
  have hrestored := State.reg_incSp_of_reg_decSp hregs
  exact ⟨_, _, exec_push s ha, exec_pop _ ha, hrestored r, hrestored 7, hrestored⟩

/-- Settles O24: RET reads the return address off the pushed cell and raises SP again. -/
theorem retAfterCallReturnsBehindCall : Obligations.RetAfterCallReturnsBehindCall := by
  intro a r s ha hpc
  obtain ⟨-, hcall, -⟩ := callPushesReturnAddressAndJumps a 0#8 s
  obtain ⟨t, ht, htsp, -, hstored, -⟩ := hcall r ha hpc
  refine ⟨t, ht, fun u husp hcell => ⟨_, exec_ret u, ?_, ?_⟩⟩
  · rw [State.setPc_pc, ← State.sp_eq, hcell, htsp, hstored]
  · rw [State.sp_eq, State.setPc_reg, State.reg_incSp_eq, if_pos rfl, ← State.sp_eq, husp, htsp, State.pushAddr_eq,
      BitVec.sub_add_cancel, State.sp_eq]

/-- Settles O16: the statements about the instructions, and the next states of CALL and RET, at operand 7. -/
theorem operandSevenIsStackPointer : Obligations.OperandSevenIsStackPointer := by
  intro v s
  refine ⟨⟨_, exec_ldi (r := 7) s rfl, s.reg_setReg_same 7 v⟩, ⟨_, exec_prn (r := 7) s rfl, rfl⟩,
    fun x r hr => ⟨?_, ?_, ?_, ?_⟩, ?_, ?_, ⟨_, exec_call (r := 7) s rfl, s.reg_decSp_sp, rfl⟩,
    ⟨_, exec_ret s, s.incSp_sp_toNat⟩⟩
  · obtain ⟨-, hadd, -⟩ := addAddsModulo256 7#8 x s
    obtain ⟨t, ht, hsum, -⟩ := hadd 7 r rfl hr
    exact ⟨t, ht, hsum⟩
  · obtain ⟨-, hadd, -⟩ := addAddsModulo256 x 7#8 s
    obtain ⟨t, ht, hsum, -⟩ := hadd r 7 hr rfl
    exact ⟨t, ht, hsum⟩
  · obtain ⟨-, hmul, -⟩ := mulMultipliesModulo256 7#8 x s
    obtain ⟨t, ht, hproduct, -⟩ := hmul 7 r rfl hr
    exact ⟨t, ht, hproduct⟩
  · obtain ⟨-, hmul, -⟩ := mulMultipliesModulo256 x 7#8 s
    obtain ⟨t, ht, hproduct, -⟩ := hmul r 7 hr rfl
    exact ⟨t, ht, hproduct⟩
  · obtain ⟨-, hpush, -⟩ := pushStoresBelowStackPointer 7#8 v s
    obtain ⟨t, ht, hsp, -, hstored, -⟩ := hpush 7 rfl
    rw [← hsp, if_pos rfl] at hstored
    exact ⟨t, ht, hsp, hstored⟩
  · obtain ⟨-, hpop, -⟩ := popLoadsFromStackPointer 7#8 v s
    obtain ⟨t, ht, -, hsp, -⟩ := hpop 7 rfl
    exact ⟨t, ht, hsp rfl⟩

end Sys2Proof.Machine
end

section
/-! Proofs of the statements about the ALU by direct invocation (43_alu.md R150, R152, R154). -/

namespace Sys2Proof.Machine

theorem aluResult_add (p q : Byte) : aluResult .add p q = .ok (p + q) := congrArg Except.ok (trunc8_add p q)

theorem aluResult_sub (p q : Byte) : aluResult .sub p q = .ok (p - q) := congrArg Except.ok (trunc8_sub p q)

theorem aluResult_mul (p q : Byte) : aluResult .mul p q = .ok (p * q) := congrArg Except.ok (trunc8_mul p q)

/-- The quotient of two bytes is a byte. -/
theorem aluResult_div {p q : Byte} (hq : q.toNat ≠ 0) :
    ∃ v : Byte, aluResult .div p q = .ok v ∧ v.toNat = p.toNat / q.toNat := by
  have hne : q ≠ 0#8 := fun h => hq (congrArg BitVec.toNat h)
  refine ⟨_, if_neg hne, ?_⟩
  rw [trunc8_toNat]
  exact Nat.mod_eq_of_lt ((Nat.div_le_self ..).trans_lt p.isLt)

/-- Settles O21: the results are the byte operations. -/
theorem aluArithmeticLaws : Obligations.AluArithmeticLaws := by
  intro p q r
  simp only [aluResult_add, aluResult_mul, Except.ok.injEq]
  refine ⟨BitVec.add_comm p q, BitVec.mul_comm p q, ?_, ?_, BitVec.add_zero p, BitVec.mul_one p, BitVec.mul_zero⟩
  · rintro _ _ rfl rfl
    exact BitVec.add_assoc p q r
  · rintro _ _ rfl rfl
    exact BitVec.mul_assoc p q r

section
variable {a b : Byte} {ra rb : RegIdx} (ha : a.toNat = ra.val) (hb : b.toNat = rb.val)
include ha hb

/-- On checked registers direct invocation is the named operation on their values. -/
theorem aluApply_eq (name : String) (s : State) :
    aluApply name a b s = (aluResult (AluOp.ofName name) (s.reg ra) (s.reg rb)).map (s.setReg ra) := by
  rw [aluApply, regIndex_ok ha, regIndex_ok hb, except_ok_bind, except_ok_bind, alu]
  cases aluResult (AluOp.ofName name) (s.reg ra) (s.reg rb) <;> rfl

/-- An operation that has a result writes it to the first register and changes nothing else. -/
theorem aluApply_writes_result {name : String} {s : State} {v : Byte}
    (hv : aluResult (AluOp.ofName name) (s.reg ra) (s.reg rb) = .ok v) :
    ∃ t, aluApply name a b s = .ok t ∧ t.reg ra = v ∧ (∀ q, q ≠ ra → t.reg q = s.reg q) ∧ SameMemory s t ∧
      t.pc = s.pc ∧ t.run = s.run ∧ t.out = s.out := by
  refine ⟨s.setReg ra v, ?_, s.reg_setReg_same ra v, fun q hq => s.reg_setReg_other ra q v hq, fun _ => rfl, rfl, rfl,
    rfl⟩
  rw [aluApply_eq ha hb, hv]
  rfl

theorem aluApply_error {name : String} {s : State} {k : FaultKind}
    (hk : aluResult (AluOp.ofName name) (s.reg ra) (s.reg rb) = .error k) : aluApply name a b s = .error k := by
  rw [aluApply_eq ha hb, hk]
  rfl

end

theorem AluOp.ofName_of_not_mem {name : String} (h : name ∉ ["ADD", "SUB", "MUL", "DIV"]) :
    AluOp.ofName name = .unsupported name := by
  simp only [List.mem_cons, List.not_mem_nil, or_false, not_or] at h
  obtain ⟨hadd, hsub, hmul, hdiv⟩ := h
  rw [AluOp.ofName, if_neg hadd, if_neg hsub, if_neg hmul, if_neg hdiv]

/-- Settles O20: the result of the named operation, or its fault. -/
theorem aluAppliesNamedOperation : Obligations.AluAppliesNamedOperation := by
  intro a b ra rb s ha hb
  refine ⟨?_, ?_, ?_, fun hne => ?_, fun hzero => ?_, fun name hname => ?_⟩
  · obtain ⟨t, ht, hval, hframe⟩ := aluApply_writes_result ha hb (name := "ADD") (aluResult_add ..)
    exact ⟨t, ht, by rw [hval, BitVec.toNat_add], hframe⟩
  · obtain ⟨t, ht, hval, hframe⟩ := aluApply_writes_result ha hb (name := "SUB") (aluResult_sub ..)
    exact ⟨t, ht, by rw [hval, BitVec.toNat_sub, Nat.add_comm], hframe⟩
  · obtain ⟨t, ht, hval, hframe⟩ := aluApply_writes_result ha hb (name := "MUL") (aluResult_mul ..)
    exact ⟨t, ht, by rw [hval, BitVec.toNat_mul], hframe⟩
  · obtain ⟨v, hv, hquot⟩ := aluResult_div (p := s.reg ra) hne
    obtain ⟨t, ht, hval, hframe⟩ := aluApply_writes_result ha hb (name := "DIV") hv
    exact ⟨t, ht, by rw [hval, hquot], hframe⟩
  · exact aluApply_error ha hb (name := "DIV") (if_pos (BitVec.eq_of_toNat_eq hzero))
  · refine aluApply_error ha hb ?_
    rw [AluOp.ofName_of_not_mem hname]
    rfl

end Sys2Proof.Machine
end

section
/-! Proofs of the statements about the step as a whole: its checks in their order (60_exceptions.md R206), the fetch near
the top (40_fetch_execute.md R112), what it depends on (R121). -/

namespace Sys2Proof.Machine

/-! ## The checks of a step -/

/-- Settles O37: 256 is the first address that does not exist. -/
theorem fetchNearTopFaultsAt256 : Obligations.FetchNearTopFaultsAt256 := fun _ hrun hlo hhi =>
  step_memoryRangeFault hrun hlo (max_eq_right hhi).symm

/-- Where the opcode uses byte a as a register index it is the first operand checked (30_encoding.md R89). -/
theorem exists_decode_of_mem_usesRegA {op : Byte} (h : op ∈ usesRegA) (a b : Byte) :
    ∃ i rest, decode op a b = .ok i ∧ i.regOperands = a :: rest := by
  simp only [usesRegA, List.mem_cons, List.not_mem_nil, or_false] at h
  rcases h with rfl | rfl | rfl | rfl | rfl | rfl | rfl <;> exact ⟨_, _, rfl, rfl⟩

/-- Where the opcode uses byte b as a register index it is checked behind byte a (30_encoding.md R89). -/
theorem exists_decode_of_mem_usesRegB {op : Byte} (h : op ∈ usesRegB) (a b : Byte) :
    ∃ i, decode op a b = .ok i ∧ i.regOperands = [a, b] := by
  simp only [usesRegB, List.mem_cons, List.not_mem_nil, or_false] at h
  rcases h with rfl | rfl <;> exact ⟨_, rfl, rfl⟩

/-- A decoded instruction is well-formed when the bytes its opcode uses as register indices are below 8. -/
theorem wf_of_decode {op a b : Byte} {i : Instr} (h : decode op a b = .ok i) (ha : op ∈ usesRegA → a.toNat < 8)
    (hb : op ∈ usesRegB → b.toNat < 8) : i.wf = true := by
  refine List.all_eq_true.2 fun x hx => decide_eq_true ?_
  obtain ⟨hop, rfl⟩ | ⟨hop, rfl⟩ := decode_regOperands h x hx
  · exact ha hop
  · exact hb hop

/-- Settles O36: the first four checks are the fetch's and the lookup's, the last two the handler's on the decoded
instruction; without a failing one the instruction is well-formed and completes. -/
theorem stepReportsFirstFailingCheck : Obligations.StepReportsFirstFailingCheck := by
  rintro s _ _ _ hrun rfl rfl rfl
  obtain ⟨hpc0, hpc1, hpc2, hunknown, hdecoded⟩ := stepRunsDecodedInstruction s hrun
  refine ⟨hpc0, hpc1, hpc2, hunknown, fun hpc hop ha => ?_, fun hpc hop ha hb => ?_, fun hpc hop ha hb => ?_⟩
  · obtain ⟨i, rest, hi, hops⟩ := exists_decode_of_mem_usesRegA hop _ _
    exact (hdecoded i hpc hi).trans (exec_first_operand_fault hops ha s)
  · obtain ⟨i, hi, hops⟩ := exists_decode_of_mem_usesRegB hop _ _
    exact (hdecoded i hpc hi).trans (exec_second_operand_fault hops ha hb s)
  · obtain ⟨i, hi⟩ := exists_decode_of_mem_opcodeBytes hop _ _
    rw [hdecoded i hpc hi]
    exact exec_not_faulted_of_wf (wf_of_decode hi ha hb) hrun

/-! ## What a step depends on (40_fetch_execute.md R121) -/

/-- The state with another output port. -/
def State.setOut (s : State) (o : List Byte) : State := { s with out := o }

/-- From `s` with any output port, `f` answers one next state and appends the same bytes to that port. -/
def AppendsOutput (f : State → Host.Outcome State Fault Refusal) (s : State) : Prop :=
  ∃ (t : State) (w : List Byte), ∀ o, f (s.setOut o) = .next (t.setOut (o ++ w))

theorem AppendsOutput.of_quiet {f : State → Host.Outcome State Fault Refusal} {s : State} (t : State)
    (h : ∀ o, f (s.setOut o) = .next (t.setOut o)) : AppendsOutput f s :=
  ⟨t, [], fun o => by rw [h, List.append_nil]⟩

/-- No handler looks at the output port; PRN alone appends to it. -/
theorem exec_appendsOutput (i : Instr) (s : State) : AppendsOutput (exec i) s := by
  cases hf : i.regOperands.find? (fun y => decide (8 ≤ y.toNat)) with
  | some x => exact .of_quiet (s.takeFault (.registerIndexFault x)) fun o => exec_registerIndexFault hf (s.setOut o)
  | none =>
    cases i, i.wf_iff_find?_eq_none.2 hf using Instr.wf_cases with
    | hlt => exact .of_quiet (s.halt.advance 1) fun o => exec_hlt (s.setOut o)
    | ldi a b r ha => exact .of_quiet ((s.setReg r b).advance 3) fun o => exec_ldi (s.setOut o) ha
    | prn a r ha => exact ⟨s.advance 2, [s.reg r], fun o => exec_prn (s.setOut o) ha⟩
    | add a b ra rb ha hb =>
      exact .of_quiet ((s.setReg ra (s.reg ra + s.reg rb)).advance 3) fun o => exec_add (s.setOut o) ha hb
    | mul a b ra rb ha hb =>
      exact .of_quiet ((s.setReg ra (s.reg ra * s.reg rb)).advance 3) fun o => exec_mul (s.setOut o) ha hb
    | push a r ha =>
      exact .of_quiet ((s.decSp.setMem (Memory.write s.mem s.pushAddr.toNat (s.decSp.reg r))).advance 2)
        fun o => exec_push (s.setOut o) ha
    | pop a r ha =>
      exact .of_quiet ((s.setReg r (Memory.read s.mem (s.reg 7).toNat)).incSp.advance 2)
        fun o => exec_pop (s.setOut o) ha
    | call a r ha =>
      exact .of_quiet
        ((s.decSp.setMem (Memory.write s.mem s.pushAddr.toNat s.returnAddr)).setPc (s.decSp.reg r).toNat)
        fun o => exec_call (s.setOut o) ha
    | ret =>
      exact .of_quiet (s.incSp.setPc (Memory.read s.mem (s.reg 7).toNat).toNat) fun o => exec_ret (s.setOut o)

/-- Nor does the fetch or the lookup look at the output port, so a step does with it what the handler does. -/
theorem step_appendsOutput {s : State} (hrun : s.run = .running) : AppendsOutput step s := by
  by_cases hpc : s.pc ≤ 253
  · by_cases hop : Memory.read s.mem s.pc ∈ opcodeBytes
    · obtain ⟨i, hi⟩ := exists_decode_of_mem_opcodeBytes hop (Memory.read s.mem (s.pc + 1))
        (Memory.read s.mem (s.pc + 2))
      obtain ⟨t, w, ht⟩ := exec_appendsOutput i s
      exact ⟨t, w, fun o => (step_eq_exec (s := s.setOut o) hrun hpc hi).trans (ht o)⟩
    · exact .of_quiet (s.takeFault (.unknownOpcode (Memory.read s.mem s.pc)))
        fun o => step_unknownOpcode (s := s.setOut o) hrun hpc hop
  · exact .of_quiet (s.takeFault (.memoryRangeFault (if s.pc ≤ 256 then 256 else s.pc)))
      fun o => step_fetchFault (s := s.setOut o) hrun (Nat.lt_of_not_le hpc)

/-- Settles O43: the two cores are one state with two output ports. -/
theorem stepDependsOnMemoryRegistersPc : Obligations.StepDependsOnMemoryRegistersPc := by
  intro s u hrun hurun hmem hregs hpc
  have hu : s.setOut u.out = u := by rw [State.setOut, ← hmem, ← hregs, ← hpc, hrun, ← hurun]
  obtain ⟨t, w, hstep⟩ := step_appendsOutput hrun
  refine ⟨t.setOut (s.out ++ w), t.setOut (u.out ++ w), w, hstep s.out, ?_, rfl, rfl, rfl, rfl, rfl, rfl⟩
  rw [← hstep u.out, hu]

end Sys2Proof.Machine
end
